-- ==== Sys2Proof/Word.lean ====
section
/-! DEFINITION. The word types: a byte, and the 16-bit command word (00_scope.md R12, 30_encoding.md R81). -/

namespace Sys2Proof

/-- A byte is 8 bits (R12). One symbol of the block code is one byte (R19, 92_eei_decisions.md D3). -/
abbrev Byte := BitVec 8

/-- The command word the HOST presents as one value (R80, R81). -/
abbrev CommandWord := BitVec 16

end Sys2Proof
end

