-- ==== Sys2Proof/Syntax.lean ====
section
/-! DEFINITION. The eleven commands (30_encoding.md R85), one constructor per row of spec/opcode_table.json. -/

namespace Sys2Proof

/-- One command of the Frame Codec Unit. `len` is the one operand of the command set, the `LEN` field
taken as it stands, unsigned (R83). The other operands of the source's calls are buffers (R84). -/
inductive Instr where
  | configure
  | transmit (len : Nat)
  | tryReceive
  | getRssi
  | radioOn
  | radioOff
  | pad (len : Nat)
  | encodeFrame
  | decodeFrame
  | correct
  | extractPayload
  deriving DecidableEq, Repr

end Sys2Proof
end

