-- ==== Sys2Proof/WellFormed.lean ====
section
/-! DEFINITION. Which commands the command word can express (30_encoding.md R81, R83). -/

namespace Sys2Proof

/-- `LEN` is an 8-bit field: "the message length operand, unsigned, 0 to 255" (R81). -/
def lenFits (len : Nat) : Bool := decide (len ≤ 255)

/-- A command is well formed when its operand, if it has one, fits its field. An oversize length in TRANSMIT
or PAD is well formed: it is refused by the operation, not by the encoding (R83, R90). -/
def Instr.wellFormed : Instr → Bool
  | .configure => true
  | .transmit len => lenFits len
  | .tryReceive => true
  | .getRssi => true
  | .radioOn => true
  | .radioOff => true
  | .pad len => lenFits len
  | .encodeFrame => true
  | .decodeFrame => true
  | .correct => true
  | .extractPayload => true

end Sys2Proof
end

