-- ==== Sys2Proof/Decode.lean ====
section
/-! DEFINITION. The command decoder, total on 16-bit words and on byte strings (30_encoding.md R81 to R90), and the
encoder written from the same patterns (R86). -/

namespace Sys2Proof

/-- Why a word is no command (R87), or why a byte string holds no word. -/
inductive DecodeError where
  /-- The reserved field `ZERO`, bits 7:4, is not `0000`. -/
  | zeroFieldNotZero
  /-- `LEN` is not 0 in an operation that takes no length (or in a reserved opcode). -/
  | lengthNotTaken
  /-- `OP` is `0x0`, `0x7`, `0xD`, `0xE` or `0xF`. -/
  | reservedOpcode
  /-- Fewer than the two bytes of a command word. -/
  | truncated
  deriving DecidableEq, Repr

/-- `OP`, bits 3:0 (R81). -/
def opField (w : CommandWord) : BitVec 4 := w.extractLsb' 0 4

/-- `ZERO`, bits 7:4 (R81). -/
def zeroField (w : CommandWord) : BitVec 4 := w.extractLsb' 4 4

/-- `LEN`, bits 15:8 (R81). -/
def lenField (w : CommandWord) : Byte := w.extractLsb' 8 8

/-- The operations without a length, by opcode (R85). -/
def decodeOperandless (op : BitVec 4) : Except DecodeError Instr :=
  if op = 0x1#4 then .ok .configure
  else if op = 0x3#4 then .ok .tryReceive
  else if op = 0x4#4 then .ok .getRssi
  else if op = 0x5#4 then .ok .radioOn
  else if op = 0x6#4 then .ok .radioOff
  else if op = 0x9#4 then .ok .encodeFrame
  else if op = 0xA#4 then .ok .decodeFrame
  else if op = 0xB#4 then .ok .correct
  else if op = 0xC#4 then .ok .extractPayload
  else .error .reservedOpcode

/-- The decoder of R90, in its own order of tests. -/
def decode (w : CommandWord) : Except DecodeError Instr :=
  if zeroField w ≠ 0x0#4 then .error .zeroFieldNotZero
  else if opField w = 0x2#4 then .ok (.transmit (lenField w).toNat)
  else if opField w = 0x8#4 then .ok (.pad (lenField w).toNat)
  else if lenField w ≠ 0x00#8 then .error .lengthNotTaken
  else decodeOperandless (opField w)

/-- Where a carrier must serialise the word, the low byte (the opcode) goes first (20_memory.md R57). The
answer is the command and the bytes after it. -/
def decodeBytes : List Byte → Except DecodeError (Instr × List Byte)
  | lo :: hi :: rest =>
    match decode (hi ++ lo) with
    | .ok i => .ok (i, rest)
    | .error e => .error e
  | _ => .error .truncated

/-- Format CMD16 (R81): `LEN`, then `ZERO` = `0000`, then `OP`. -/
def commandWord (len : Nat) (op : BitVec 4) : CommandWord := BitVec.ofNat 8 len ++ 0x0#4 ++ op

/-- The encoder: the patterns of R86. Its answer means something for a well-formed command. -/
def encode : Instr → CommandWord
  | .configure => commandWord 0 0x1#4
  | .transmit len => commandWord len 0x2#4
  | .tryReceive => commandWord 0 0x3#4
  | .getRssi => commandWord 0 0x4#4
  | .radioOn => commandWord 0 0x5#4
  | .radioOff => commandWord 0 0x6#4
  | .pad len => commandWord len 0x8#4
  | .encodeFrame => commandWord 0 0x9#4
  | .decodeFrame => commandWord 0 0xA#4
  | .correct => commandWord 0 0xB#4
  | .extractPayload => commandWord 0 0xC#4

/-- The command word that the number `w` of `nbits` bits stands for: bits from `nbits` up are 0. -/
def tableWord (nbits w : Nat) : CommandWord := BitVec.ofNat 16 (w % 2 ^ nbits)

/-- What the decoder reads from the table's number `w` of `nbits` bits, laid out low byte first (R57). -/
def decodeTableWord (nbits w : Nat) : Option Instr :=
  match decodeBytes [(tableWord nbits w).extractLsb' 0 8, (tableWord nbits w).extractLsb' 8 8] with
  | .ok (i, _) => some i
  | .error _ => none

end Sys2Proof
end

