-- ==== Sys2Proof/Machine/State.lean ====
section
/-! DEFINITION. The state of the whole machine (10_state.md R20 and R33), why it can stop, and the state after reset
(R37, 70_reset_and_hazards.md R250). -/

namespace Sys2Proof.Machine

/-- A piece of state that has a value or is `unknown` / unspecified (R37). A read of an unknown one yields `any`. -/
inductive Val (α : Type) where
  | known (a : α)
  | unknown
  deriving DecidableEq, Repr

/-- The transceiver's power state (R21). -/
inductive Power where
  | off
  | on
  | unknown
  deriving DecidableEq, Repr

/-- The sequencing register `PHASE` (R26). -/
inductive Phase where
  | idle
  | polled
  | noData
  | decoded
  | clean
  | correcting
  | corrected
  | uncorrectable
  | busy
  deriving DecidableEq, Repr

/-- The bytes of one buffer space, by rising index. An index that is not listed holds an unspecified byte (R37). -/
abbrev Memory := List Host.Cell

/-- The architectural state of the FCU, exactly the nine fields of R20. -/
structure Fcu where
  /-- `RS.power` (R21). -/
  power : Power
  /-- `RS.rssi` (R22). -/
  rssi : Val Byte
  /-- `RES` (R23). -/
  res : Byte
  /-- `ERR` (R24). -/
  err : Byte
  /-- `PHASE` (R26). -/
  phase : Phase
  /-- `MSG` (20_memory.md R51). -/
  msg : Memory
  /-- `PAD` (20_memory.md R52). -/
  pad : Memory
  /-- `FRM` (20_memory.md R53). -/
  frm : Memory
  /-- `OUT` (20_memory.md R54). -/
  out : Memory
  deriving DecidableEq, Repr

/-- The hidden state of the Block Codec Adapter (R33 a). -/
structure Bca where
  /-- `BCA.syn`, as `BCA.syndromeNonZero` answers it (40_adapter_primitives.md R122, R123). -/
  syn : Val Bool
  /-- Whether a `BCA.correct` may rely on the last `BCA.decode`: `FRM` has not been written since, and no TRY_RECEIVE
  that made it has completed (R124, R147, 70_reset_and_hazards.md R262; the model's own bookkeeping, log entry 13). -/
  fresh : Bool
  deriving DecidableEq, Repr

/-- What AIR made pending at the TA (R117): the bytes received, the size the TA reports, the signal strength. -/
structure RxUnit where
  bytes : List Byte
  size : Byte
  rssi : Byte
  deriving DecidableEq, Repr

/-- The hidden state of the Transceiver Adapter (R33 b to d) and the answers it gives next (R113, R114, R119). -/
structure Ta where
  /-- `TA.pending`: what the next `TA.receive` finds; `unknown` where AIR has not decided yet. -/
  pending : Val (Option RxUnit)
  /-- `TA.lastRssi` (R120). -/
  lastRssi : Val Byte
  /-- The radio's enable line (R111, R112). -/
  line : Power
  /-- The frame size it was initialised with (R113). -/
  frameSize : Val Nat
  /-- The frequency it was set to (R114). -/
  frequency : Val Nat
  /-- The modem profile it was set to (R115). -/
  modemProfile : Val Nat
  /-- The transmit power it was set to (R116). -/
  transmitPower : Val Nat
  /-- What the next `TA.initialize` answers. -/
  probeAnswer : Val Bool
  /-- What the next `TA.setFrequency` answers. -/
  frequencyAnswer : Val Bool
  /-- Whether the next `TA.waitSendComplete` returns. -/
  confirmAnswer : Val Bool
  deriving DecidableEq, Repr

/-- What the outside world does next (00_scope.md R9, 10_state.md R35, 30_encoding.md R92). -/
inductive Input where
  /-- HOST issues a command word (R80). -/
  | command (w : CommandWord)
  /-- HOST writes the byte `MSG[i]` (R56). -/
  | writeMsg (i : Nat) (b : Byte)
  /-- HOST writes the byte `OUT[i]` (R56). -/
  | writeOut (i : Nat) (b : Byte)
  /-- HOST sets the byte `FRM[i]` to prepare a test of the micro-operations (R92). -/
  | writeFrm (i : Nat) (b : Byte)
  /-- AIR decides what the next `TA.receive` finds (R67, R117). -/
  | air (p : Option RxUnit)
  /-- The TA's next answer to `TA.initialize` (R113). -/
  | probe (ok : Bool)
  /-- The TA's next answer to `TA.setFrequency` (R114). -/
  | frequency (ok : Bool)
  /-- Whether the TA confirms the next send (R119). -/
  | confirm (ok : Bool)
  /-- Reset, "an event from outside" (70_reset_and_hazards.md R250). -/
  | reset
  deriving DecidableEq, Repr

/-- What the FCU does at its interface, and the values `PHASE` takes (20_memory.md R63 c, 43_receive.md R187). -/
inductive Event where
  | phase (p : Phase)
  | platInitBus
  | platDelay (d : Nat)
  | taPowerOn
  | taPowerOff
  | taInitialize (frameSize : Nat)
  | taSetFrequency (mhz : Nat)
  | taSetModemProfile (profile : Nat)
  | taSetTransmitPower (level : Nat)
  | taReceive
  | taSend (bytes : List Byte) (size : Nat)
  | taWaitSendComplete
  | taLastSignalStrength
  | bcaEncode (input : List Byte)
  | bcaDecode (size : Nat)
  | bcaSyndromeNonZero
  | bcaCorrect (size knownErasureCount : Nat)
  deriving DecidableEq, Repr

/-- The state of the whole machine: the FCU, the adapters' hidden state, and three fields of the model's own. -/
structure State where
  fcu : Fcu
  bca : Bca
  ta : Ta
  /-- What HOST, AIR, the TA and the outside do next, first one first (log entry 6). -/
  inputs : List Input
  /-- What has happened at the interface, oldest first (log entry 16). -/
  trace : List Event
  /-- The number of the next free draw (log entry 3). -/
  draws : Nat
  deriving DecidableEq, Repr

/-- Why the machine stops. -/
inductive Fault where
  /-- Raised by `step` when `PHASE` is not `Idle` and the outside does nothing: a TRANSMIT the TA never confirms, "a
  state with no enabled step, which is not a final state" (42_transmit.md R166). Safe: the spec's own hang. -/
  | noEnabledStep
  /-- Raised by a HOST write outside a window: no such byte exists (20_memory.md R51, R54, R58). Safe. -/
  | indexOutsideWindow
  deriving DecidableEq, Repr

/-- Why the machine has no move. -/
inductive Refusal where
  /-- Raised by an arm of `exec` for an instruction that has no meaning yet; no arm does. Safe. -/
  | notModelled (mnemonic : String)
  /-- Raised by a command issued while `PHASE` is not `Idle`: "a model refuses it" (R256, D21). Safe. -/
  | commandWhileRunning
  /-- Raised by a HOST write of a window while `PHASE` is not `Idle`: "no meaning" (R257, D21). Safe. -/
  | windowWhileRunning
  deriving DecidableEq, Repr

/-- The FCU after reset (R37): registers at the spec's values, RadioState unknown, every buffer byte unspecified. -/
def Fcu.reset : Fcu where
  power := .unknown
  rssi := .unknown
  res := 0x00#8
  err := 0x00#8
  phase := .idle
  msg := []
  pad := []
  frm := []
  out := []

/-- The BCA after reset: its syndrome is unspecified (R37). -/
def Bca.reset : Bca where
  syn := .unknown
  fresh := false

/-- The TA after reset, "in a state of its own" (R37, R250): nothing about it is known. -/
def Ta.reset : Ta where
  pending := .unknown
  lastRssi := .unknown
  line := .unknown
  frameSize := .unknown
  frequency := .unknown
  modemProfile := .unknown
  transmitPower := .unknown
  probeAnswer := .unknown
  frequencyAnswer := .unknown
  confirmAnswer := .unknown

/-- The machine right after reset (R37, R250, R251): it waits in `PHASE = Idle` for the first command. -/
def State.reset : State where
  fcu := Fcu.reset
  bca := Bca.reset
  ta := Ta.reset
  inputs := []
  trace := []
  draws := 0

end Sys2Proof.Machine
end

