-- ==== Sys2Proof/Machine/Flags.lean ====
section
/-! DEFINITION. The values a command leaves in `RES` and `ERR`: the status flags, the one-bit results, the error codes
(10_state.md R28 to R31, 60_exceptions.md R221). -/

namespace Sys2Proof.Machine

/-- The error codes of R221. No rule writes `physicalLink` (R226). -/
inductive ErrorCode where
  | ok
  | payloadTooLarge
  | configWarning
  | illegalCommand
  | physicalLink
  deriving DecidableEq, Repr

/-- The code in `ERR` (R221). -/
def ErrorCode.code : ErrorCode → Byte
  | .ok => 0x00#8
  | .payloadTooLarge => 0x01#8
  | .configWarning => 0x02#8
  | .illegalCommand => 0x03#8
  | .physicalLink => 0x04#8

/-- A one-bit field. -/
def flagBit (b : Bool) : BitVec 1 := BitVec.ofBool b

/-- The ReceiveOutcome status, four flags each with its own cause (R28, 43_receive.md R186). -/
structure Status where
  /-- `R`: message received. -/
  received : Bool
  /-- `C`: error correction was invoked. -/
  attempted : Bool
  /-- `U`: error correction failed. -/
  uncorrectable : Bool
  /-- `M`: frame-size mismatch. -/
  mismatch : Bool
  deriving DecidableEq, Repr

/-- `{0000, M, U, C, R}` (R28, R184). -/
def Status.byte (f : Status) : Byte :=
  0x0#4 ++ flagBit f.mismatch ++ flagBit f.uncorrectable ++ flagBit f.attempted ++ flagBit f.received

/-- Every call of TRY_RECEIVE starts at all-false (R28, R176). -/
def Status.none : Status where
  received := false
  attempted := false
  uncorrectable := false
  mismatch := false

/-- `zext_8` of a one-bit result: `SYN`, `COK` (R30). -/
def flagByte (b : Bool) : Byte := 0x00#7 ++ flagBit b

/-- `{000000, FREQ_OK, PROBE_OK}` (R31). -/
def configByte (probeOk freqOk : Bool) : Byte := 0x00#6 ++ flagBit freqOk ++ flagBit probeOk

/-- The error CONFIGURE reports: a warning when either check failed (44_lifecycle.md R201). -/
def configError (probeOk freqOk : Bool) : ErrorCode :=
  if probeOk = true ∧ freqOk = true then .ok else .configWarning

/-- Whether the received size sets `M` (43_receive.md R179): it differs from `FRAME_SIZE`. -/
def sizeMismatch (frameSize : Nat) (rxSize : Byte) : Bool := decide (rxSize.toNat ≠ frameSize)

end Sys2Proof.Machine
end

