-- ==== Sys2Proof/Config.lean ====
section
/-! DEFINITION. What an implementation fixes (00_scope.md R10), the Block Codec Adapter as an injected record of
functions with its contracts (40_adapter_primitives.md R110, R121 to R129), and the free values `any` (R17). -/

namespace Sys2Proof

/-- The parameters of R10, the functions of the Block Codec Adapter, and the draws of `any`. Every meaning takes
one as its argument, so that a test can use a made-up one; the machine itself uses `Config.hw`, of which nothing
is known but `Config.hw_wf`. -/
structure Config where
  /-- `MAX_PAYLOAD` (R10, D1). -/
  maxPayload : Nat
  /-- `FRAME_SIZE` (R10, D2). -/
  frameSize : Nat
  /-- `T_CORRECT` (R10, D25): owned by the BCA, read by the contract R126 only. -/
  tCorrect : Nat
  /-- `SETTLE_DELAY`, handed to `PLAT.delay` (R10, R203). -/
  settleDelay : Nat
  /-- `FREQ_MHZ`, handed to `TA.setFrequency` (R10, R114). -/
  freqMhz : Nat
  /-- `MODEM_PROFILE`, handed to `TA.setModemProfile` (R10, R115). -/
  modemProfile : Nat
  /-- `TX_POWER_MAX`, handed to `TA.setTransmitPower` (R10, R116). -/
  txPowerMax : Nat
  /-- `DIAG` (R10, R164, D28): no definition reads it, it has no architectural effect. -/
  diag : Bool
  /-- `BCA.encode` (R121): byte `i` of the output for an input of `MAX_PAYLOAD` bytes. -/
  enc : List Byte → Nat → Byte
  /-- `BCA.decode` (R122): byte `i` of the buffer after decoding a buffer of `FRAME_SIZE` bytes. -/
  dec : List Byte → Nat → Byte
  /-- The syndrome `BCA.decode` leaves, as `BCA.syndromeNonZero` answers it (R122, R123). -/
  syn : List Byte → Bool
  /-- What `BCA.correct` answers for the Symbols (R124, R128). -/
  corOk : List Byte → Bool
  /-- Byte `i` of the corrected Symbols; meaningful where `corOk` is true (R124). -/
  corByte : List Byte → Nat → Byte
  /-- Byte `i` of the free draw number `d` (R17). -/
  anyByte : Nat → Nat → Byte
  /-- The free draw number `d` of a truth value (R17). -/
  anyBool : Nat → Bool

/-- The relations and bounds of R10, D1, D2 and D25. -/
abbrev Config.Wf (c : Config) : Prop :=
  1 ≤ c.maxPayload ∧ c.maxPayload ≤ 254 ∧ c.maxPayload < c.frameSize ∧ c.frameSize ≤ 255 ∧ 1 ≤ c.tCorrect

/-- `NPAR`, the number of redundancy bytes (R10). -/
def Config.npar (c : Config) : Nat := c.frameSize - c.maxPayload

/-- The `FRAME_SIZE` bytes of `BCA.encode(X)` (R121). -/
def Config.encode (c : Config) (x : List Byte) : List Byte := (List.range c.frameSize).map (c.enc x)

/-- The buffer after `BCA.decode(F, FRAME_SIZE)`, `dec(F)` of R125. -/
def Config.decodeBuffer (c : Config) (f : List Byte) : List Byte := (List.range c.frameSize).map (c.dec f)

/-- The buffer after a `BCA.correct` that answered true (R124). -/
def Config.correctBuffer (c : Config) (f : List Byte) : List Byte := (List.range c.frameSize).map (c.corByte f)

/-- The bytes a free draw of `n` bytes yields (R17). -/
def Config.anyBytes (c : Config) (d n : Nat) : List Byte := (List.range n).map (c.anyByte d)

/-- The number of byte positions in which two buffers of one length differ (R126). -/
def changedPositions (f g : List Byte) : Nat := (f.zip g).countP (fun p => decide (p.1 ≠ p.2))

/-- The contract R125, round trip: the decoded symbols of an encoded payload begin with it and the syndrome is zero. -/
def Config.RoundTrip (c : Config) : Prop :=
  ∀ x : List Byte, x.length = c.maxPayload →
    (c.decodeBuffer (c.encode x)).take c.maxPayload = x ∧ c.syn (c.encode x) = false

/-- The contract R126 with its extension to `T_CORRECT` positions (D25): correction within capacity. -/
def Config.CorrectsWithinCapacity (c : Config) : Prop :=
  ∀ x f : List Byte, x.length = c.maxPayload → f.length = c.frameSize →
    1 ≤ changedPositions f (c.encode x) → changedPositions f (c.encode x) ≤ c.tCorrect →
      c.syn f = true ∧ c.corOk (c.decodeBuffer f) = true ∧
        (c.correctBuffer (c.decodeBuffer f)).take c.maxPayload = x

/-- R127 read literally: more than `T_CORRECT` corrupted positions are always detected and reported. A model must
not assume it of an arbitrary BCA. -/
def Config.BeyondCapacityDetected (c : Config) : Prop :=
  ∀ x f : List Byte, x.length = c.maxPayload → f.length = c.frameSize →
    c.tCorrect < changedPositions f (c.encode x) →
      c.syn f = true ∧ c.corOk (c.decodeBuffer f) = false

/-! The hardware's own configuration: constants without a body (notes/assumptions/1.md to 3.md). -/

/-- `MAX_PAYLOAD - 1`, any number from 0 to 253. -/
opaque Config.hwMaxPayloadLessOne : Fin 254
/-- Any number; `FRAME_SIZE - MAX_PAYLOAD - 1` is its remainder. -/
opaque Config.hwRedundancy : Nat
/-- `T_CORRECT - 1`. -/
opaque Config.hwTCorrectLessOne : Nat
/-- `SETTLE_DELAY`. -/
opaque Config.hwSettleDelay : Nat
/-- `FREQ_MHZ`. -/
opaque Config.hwFreqMhz : Nat
/-- `MODEM_PROFILE`. -/
opaque Config.hwModemProfile : Nat
/-- `TX_POWER_MAX`. -/
opaque Config.hwTxPowerMax : Nat
/-- `DIAG`. -/
opaque Config.hwDiag : Bool
/-- The hardware's `BCA.encode`. -/
opaque Config.hwEnc : List Byte → Nat → Byte
/-- The hardware's `BCA.decode`. -/
opaque Config.hwDec : List Byte → Nat → Byte
/-- The hardware's syndrome. -/
opaque Config.hwSyn : List Byte → Bool
/-- The hardware's answer of `BCA.correct`. -/
opaque Config.hwCorOk : List Byte → Bool
/-- The hardware's corrected Symbols. -/
opaque Config.hwCorByte : List Byte → Nat → Byte
/-- FREE VALUE: the bytes of `any`, by draw number and index. -/
opaque Config.freeByte : Nat → Nat → Byte
/-- FREE VALUE: the truth values of `any`, by draw number. -/
opaque Config.freeBool : Nat → Bool

/-- The configuration the machine runs with. Its bounds hold by construction: every pair of sizes that R10
allows is some choice of the two constants. -/
def Config.hw : Config where
  maxPayload := Config.hwMaxPayloadLessOne.val + 1
  frameSize :=
    Config.hwMaxPayloadLessOne.val + 2 + Config.hwRedundancy % (254 - Config.hwMaxPayloadLessOne.val)
  tCorrect := Config.hwTCorrectLessOne + 1
  settleDelay := Config.hwSettleDelay
  freqMhz := Config.hwFreqMhz
  modemProfile := Config.hwModemProfile
  txPowerMax := Config.hwTxPowerMax
  diag := Config.hwDiag
  enc := Config.hwEnc
  dec := Config.hwDec
  syn := Config.hwSyn
  corOk := Config.hwCorOk
  corByte := Config.hwCorByte
  anyByte := Config.freeByte
  anyBool := Config.freeBool

/-- The hardware's parameters meet the bounds of R10. -/
theorem Config.hw_wf : Config.hw.Wf := by
  have h := Config.hwMaxPayloadLessOne.isLt
  have hr : Config.hwRedundancy % (254 - Config.hwMaxPayloadLessOne.val) <
      254 - Config.hwMaxPayloadLessOne.val := Nat.mod_lt _ (by omega)
  simp only [Config.Wf, Config.hw]
  omega

end Sys2Proof
end

