-- ==== Sys2Proof/Machine/Operands.lean ====
section
/-! DEFINITION. The operand forms of the command set: the length operand and the four buffer spaces
(30_encoding.md R83, R84, 20_memory.md R50 to R54, R68). -/

namespace Sys2Proof.Machine

/-- A buffer space (20_memory.md R50). -/
inductive Space where
  | msg
  | pad
  | frm
  | out
  deriving DecidableEq, Repr

/-- The size of a space in bytes (R51 to R54). -/
def Space.size (c : Config) : Space → Nat
  | .msg => c.maxPayload
  | .pad => c.maxPayload
  | .frm => c.frameSize
  | .out => c.maxPayload

/-- The bytes of a space. -/
def Fcu.space (f : Fcu) : Space → Memory
  | .msg => f.msg
  | .pad => f.pad
  | .frm => f.frm
  | .out => f.out

/-- The FCU with the bytes of one space replaced. -/
def Fcu.setSpace (f : Fcu) (sp : Space) (m : Memory) : Fcu :=
  match sp with
  | .msg => { f with msg := m }
  | .pad => { f with pad := m }
  | .frm => { f with frm := m }
  | .out => { f with out := m }

/-- `len > MAX_PAYLOAD`, unsigned and without wrap (41_frame_codec.md R141, R149). -/
def payloadTooLarge (c : Config) (len : Nat) : Bool := decide (c.maxPayload < len)

end Sys2Proof.Machine
end

