-- ==== Sys2Proof/Machine/Ops.lean ====
section
/-! DEFINITION. The named operations over memory and registers: bytes of a space, `MemRead` and `MemWrite`
(00_scope.md R15), free draws (R17), the registers, issuing and completing a command, and reporting an error (R16). -/

namespace Sys2Proof.Machine

/-! Bytes of one space, listed by rising index. -/

/-- The byte at an index; none where it is unspecified (10_state.md R37). -/
def Memory.peek : Memory → Nat → Option Byte
  | [], _ => none
  | (a, b) :: m, i => if a = i then some b else Memory.peek m i

/-- Writes one byte, keeping the indices rising. -/
def Memory.poke : Memory → Nat → Byte → Memory
  | [], i, b => [(i, b)]
  | (a, x) :: m, i, b =>
    if i < a then (i, b) :: (a, x) :: m
    else if i = a then (i, b) :: m
    else (a, x) :: Memory.poke m i b

/-- Writes bytes in ascending index order (R15). -/
def Memory.pokeAll : Memory → Nat → List Byte → Memory
  | m, _, [] => m
  | m, i, b :: bs => Memory.pokeAll (Memory.poke m i b) (i + 1) bs

/-- The canonical form: strictly rising indices. An unlisted index has no value, so no entry can equal what an
unlisted index reads as. -/
abbrev Memory.wf (m : Memory) : Prop := m.Pairwise (fun x y => x.1 < y.1)

/-- No byte is listed at an index outside a space of `n` bytes. -/
abbrev Memory.below (m : Memory) (n : Nat) : Prop := ∀ x ∈ m, x.1 < n

/-! The fields of the state. -/

/-- Records one event at the interface. -/
def State.emit (s : State) (e : Event) : State := { s with trace := s.trace ++ [e] }

/-- `PHASE <- p` (R14). -/
def State.setPhase (s : State) (p : Phase) : State :=
  ({ s with fcu := { s.fcu with phase := p } } : State).emit (.phase p)

/-- `RES <- v`. -/
def State.setRes (s : State) (v : Byte) : State := { s with fcu := { s.fcu with res := v } }

/-- `ERR <- v`. -/
def State.setErr (s : State) (v : Byte) : State := { s with fcu := { s.fcu with err := v } }

/-- `RS.power <- p`. -/
def State.setPower (s : State) (p : Power) : State := { s with fcu := { s.fcu with power := p } }

/-- `RS.rssi <- v`. -/
def State.setRssi (s : State) (v : Byte) : State := { s with fcu := { s.fcu with rssi := .known v } }

/-- Replaces the TA's hidden state. -/
def State.setTa (s : State) (ta : Ta) : State := { s with ta := ta }

/-- Replaces the BCA's hidden state. -/
def State.setBca (s : State) (b : Bca) : State := { s with bca := b }

/-- Replaces the bytes of one space. Writing `FRM` ends the freshness of the last decode (R124, R147). -/
def State.setSpace (s : State) (sp : Space) (m : Memory) : State :=
  { s with
    fcu := s.fcu.setSpace sp m
    bca := if sp = .frm then { s.bca with fresh := false } else s.bca }

/-- Ends the freshness of the last decode: what follows is no CORRECT after a DECODE_FRAME (41_frame_codec.md R147,
70_reset_and_hazards.md R262, log entry 13). -/
def State.endDecode (s : State) : State := s.setBca { s.bca with fresh := false }

/-! Free draws (R17): each use takes the next number. -/

/-- The state with one draw used up. -/
def State.drawn (s : State) : State := { s with draws := s.draws + 1 }

/-- `n` bytes of `any`. -/
def State.drawBytes (c : Config) (n : Nat) (s : State) : List Byte × State := (c.anyBytes s.draws n, s.drawn)

/-- One byte of `any`. -/
def State.drawByte (c : Config) (s : State) : Byte × State := (c.anyByte s.draws 0, s.drawn)

/-- A truth value of `any`. -/
def State.drawBool (c : Config) (s : State) : Bool × State := (c.anyBool s.draws, s.drawn)

/-- Reads a byte that may be unknown (R37). -/
def State.readByte (c : Config) (v : Val Byte) (s : State) : Byte × State :=
  match v with
  | .known b => (b, s)
  | .unknown => s.drawByte c

/-- Reads a truth value that may be unknown (R37). -/
def State.readBool (c : Config) (v : Val Bool) (s : State) : Bool × State :=
  match v with
  | .known b => (b, s)
  | .unknown => s.drawBool c

/-! Access to the spaces (R15). -/

/-- The bytes `S[i..i+n)`, with byte `k` of the draw number `d` where the byte is unspecified (R37). -/
def bytesAt (c : Config) (m : Memory) (d i n : Nat) : List Byte :=
  (List.range n).map (fun k => (Memory.peek m (i + k)).getD (c.anyByte d k))

/-- `MemRead(S, i, n)` (R15). -/
def memRead (c : Config) (sp : Space) (i n : Nat) (s : State) : List Byte × State :=
  (bytesAt c (s.fcu.space sp) s.draws i n, s.drawn)

/-- `MemWrite(S, i, n, v)` with `n` the length of `v` (R15). -/
def memWrite (sp : Space) (i : Nat) (v : List Byte) (s : State) : State :=
  s.setSpace sp (Memory.pokeAll (s.fcu.space sp) i v)

/-! Issuing and completing a command, and reporting an error. -/

/-- A command runs only when `PHASE = Idle`; "a model refuses it" otherwise (70_reset_and_hazards.md R256). -/
def whenIdle (s : State) (k : State → State) : Host.Outcome State Fault Refusal :=
  if s.fcu.phase = .idle then .next (k s) else .refused .commandWhileRunning

/-- The issue of any command but TRY_RECEIVE (10_state.md R27). -/
def issue (s : State) : State := s.setPhase .busy

/-- Completion of any command (R27). -/
def complete (s : State) : State := s.setPhase .idle

/-- `raise` (R16, 60_exceptions.md R220, R230): the ONE operation that reports an error. It writes the code to
`ERR`, saves nothing, transfers no control, and completes the command. There is no return from it (R231). -/
def raise (e : ErrorCode) (s : State) : State := complete (s.setErr e.code)

/-- The end of a command: `RES`, then `ERR`, then `PHASE <- Idle` (R23, R24, R27). -/
def finish (res : Byte) (e : ErrorCode) (s : State) : State := raise e (s.setRes res)

/-- What an illegal command word does, "and nothing else" (30_encoding.md R88, 60_exceptions.md R227). -/
def illegalCommand (s : State) : Host.Outcome State Fault Refusal :=
  whenIdle s (finish 0x00#8 .illegalCommand)

end Sys2Proof.Machine
end

