-- ==== Sys2Proof/Machine/Adapters.lean ====
section
/-! DEFINITION. The primitives of the two adapters and of the platform, one definition per rule
(40_adapter_primitives.md R111 to R124, 44_lifecycle.md R202, R203). -/

namespace Sys2Proof.Machine

/-! Platform. -/

/-- `PLAT.initBus()` (R202): the FCU relies on nothing about it. -/
def platInitBus (s : State) : State := s.emit .platInitBus

/-- `PLAT.delay(d)` (R203): it changes no state. -/
def platDelay (d : Nat) (s : State) : State := s.emit (.platDelay d)

/-! Transceiver Adapter. -/

/-- `TA.powerOn()` (R111): raises the enable line. What is then pending is AIR's next choice. -/
def taPowerOn (s : State) : State :=
  (s.emit .taPowerOn).setTa { s.ta with line := .on, pending := .unknown }

/-- `TA.powerOff()` (R112): lowers the enable line. No source says what the TA keeps (91_not_in_source.md N13). -/
def taPowerOff (s : State) : State :=
  (s.emit .taPowerOff).setTa
    { s.ta with
      line := .off
      pending := .unknown
      frameSize := .unknown
      frequency := .unknown
      modemProfile := .unknown
      transmitPower := .unknown }

/-- `TA.initialize(frameSize) -> bool` (R113). -/
def taInit (c : Config) (frameSize : Nat) (s : State) : Bool × State :=
  let (ok, s) := (s.emit (.taInitialize frameSize)).readBool c s.ta.probeAnswer
  (ok, s.setTa
    { s.ta with
      frameSize := if ok then .known frameSize else .unknown
      pending := .unknown
      probeAnswer := .unknown })

/-- `TA.setFrequency(mhz) -> bool` (R114). -/
def taSetFrequency (c : Config) (mhz : Nat) (s : State) : Bool × State :=
  let (ok, s) := (s.emit (.taSetFrequency mhz)).readBool c s.ta.frequencyAnswer
  (ok, s.setTa
    { s.ta with
      frequency := if ok then .known mhz else .unknown
      frequencyAnswer := .unknown })

/-- `TA.setModemProfile(profile)` (R115). -/
def taSetModemProfile (profile : Nat) (s : State) : State :=
  (s.emit (.taSetModemProfile profile)).setTa { s.ta with modemProfile := .known profile }

/-- `TA.setTransmitPower(level)` (R116). -/
def taSetTransmitPower (level : Nat) (s : State) : State :=
  (s.emit (.taSetTransmitPower level)).setTa { s.ta with transmitPower := .known level }

/-- The bytes of `FRM` after a fetch (R117): the first `min(n, FRAME_SIZE)` received bytes, then `any`. -/
def fetched (c : Config) (d : Nat) (u : RxUnit) : List Byte :=
  (List.range c.frameSize).map
    (fun i => ((u.bytes.take (min u.size.toNat c.frameSize))[i]?).getD (c.anyByte d i))

/-- The fetch of a unit AIR has made pending: `FRM` is filled, the unit is consumed, the TA's own record holds its
strength (R117, R120). -/
def taFetch (c : Config) (u : RxUnit) (s : State) : State :=
  (memWrite .frm 0 (fetched c s.draws u) s.drawn).setTa
    { s.ta with pending := .unknown, lastRssi := .known u.rssi }

/-- The fetch of a unit nothing has decided: its bytes and its strength are `any` (R67, R117). -/
def taFetchAny (c : Config) (s : State) : State :=
  let (v, s) := s.drawBytes c c.frameSize
  (memWrite .frm 0 v s).setTa { s.ta with pending := .unknown, lastRssi := .unknown }

/-- `TA.receive(FRM, &size) -> bool` (R117): the reported size where a frame was pending. One call answers about
one choice of AIR; the next choice is AIR's again (20_memory.md R67). -/
def taReceive (c : Config) (s : State) : Option Byte × State :=
  let s := s.emit .taReceive
  match s.ta.pending with
  | .known none => (none, s.setTa { s.ta with pending := .unknown })
  | .known (some u) => (some u.size, taFetch c u s)
  | .unknown =>
    let (avail, s) := s.drawBool c
    let (size, s) := s.drawByte c
    if avail then (some size, taFetchAny c s) else (none, s)

/-- `TA.send(FRM, FRAME_SIZE)` (R118): hands over the bytes of `FRM` as one unit. What arrives meanwhile is AIR's
choice (R67). -/
def taSend (c : Config) (s : State) : State :=
  let (frame, s) := memRead c .frm 0 c.frameSize s
  (s.emit (.taSend frame c.frameSize)).setTa { s.ta with pending := .unknown }

/-- `TA.waitSendComplete()` (R119): whether it returns. -/
def taWaitSendComplete (c : Config) (s : State) : Bool × State :=
  let (ok, s) := (s.emit .taWaitSendComplete).readBool c s.ta.confirmAnswer
  (ok, s.setTa { s.ta with confirmAnswer := .unknown })

/-- `TA.lastSignalStrength() -> byte` (R120), without side effect. -/
def taLastSignalStrength (c : Config) (s : State) : Byte × State :=
  (s.emit .taLastSignalStrength).readByte c s.ta.lastRssi

/-! Block Codec Adapter. -/

/-- `FRM <- BCA.encode(PAD)` (R121). -/
def bcaEncode (c : Config) (s : State) : State :=
  let (x, s) := memRead c .pad 0 c.maxPayload s
  memWrite .frm 0 (c.encode x) (s.emit (.bcaEncode x))

/-- `BCA.decode(FRM, FRAME_SIZE)` (R122): rewrites `FRM` in place and leaves the syndrome of the block. A
`BCA.correct` may rely on it until `FRM` is written or the TRY_RECEIVE that made it completes (R262, log entry 13). -/
def bcaDecode (c : Config) (s : State) : State :=
  let (f, s) := memRead c .frm 0 c.frameSize s
  (memWrite .frm 0 (c.decodeBuffer f) (s.emit (.bcaDecode c.frameSize))).setBca
    { syn := .known (c.syn f), fresh := true }

/-- `BCA.syndromeNonZero() -> bool` (R123), without side effect. -/
def bcaSyndromeNonZero (c : Config) (s : State) : Bool × State :=
  (s.emit .bcaSyndromeNonZero).readBool c s.bca.syn

/-- `BCA.correct(FRM, FRAME_SIZE, 0, none) -> success` (R124). After a decode of this content the answer is the
BCA's, and a false answer leaves `any` in `FRM`; otherwise the answer and every byte are `any`. -/
def bcaCorrect (c : Config) (s : State) : Bool × State :=
  let s := s.emit (.bcaCorrect c.frameSize 0)
  let fresh := s.bca.fresh
  let (f, s) := memRead c .frm 0 c.frameSize s
  let (answer, s) := s.drawBool c
  let (noise, s) := s.drawBytes c c.frameSize
  let ok := if fresh then c.corOk f else answer
  (ok, memWrite .frm 0 (if fresh ∧ ok = true then c.correctBuffer f else noise) s)

end Sys2Proof.Machine
end

