-- ==== Sys2Proof/Machine/Lifecycle.lean ====
section
/-! DEFINITION. The Radio Lifecycle Controller: CONFIGURE, RADIO_ON, RADIO_OFF, GET_RSSI (44_lifecycle.md R200 to R207). -/

namespace Sys2Proof.Machine

/-- CONFIGURE up to its two checks (R201): the bus, power off, the settle delay, power on. -/
def powerCycle (c : Config) (s : State) : State :=
  let s := (taPowerOff (platInitBus s)).setPower .off
  (taPowerOn (platDelay c.settleDelay s)).setPower .on

/-- CONFIGURE (R201), for any configuration. Every step runs whatever the two answers are (R222). -/
def execConfigureIn (c : Config) (s : State) : Host.Outcome State Fault Refusal :=
  whenIdle s fun s =>
    let (probeOk, s) := taInit c c.frameSize (powerCycle c (issue s))
    let (freqOk, s) := taSetFrequency c c.freqMhz s
    let s := taSetTransmitPower c.txPowerMax (taSetModemProfile c.modemProfile s)
    finish (configByte probeOk freqOk) (configError probeOk freqOk) s

/-- RADIO_ON (R204), for any configuration. -/
def execRadioOnIn (_ : Config) (s : State) : Host.Outcome State Fault Refusal :=
  whenIdle s fun s => finish 0x00#8 .ok ((taPowerOn (issue s)).setPower .on)

/-- RADIO_OFF (R205), for any configuration. -/
def execRadioOffIn (_ : Config) (s : State) : Host.Outcome State Fault Refusal :=
  whenIdle s fun s => finish 0x00#8 .ok ((taPowerOff (issue s)).setPower .off)

/-- GET_RSSI (R206), for any configuration: the FCU's own record, any byte when it is unknown. -/
def execGetRssiIn (c : Config) (s : State) : Host.Outcome State Fault Refusal :=
  whenIdle s fun s =>
    let (v, s) := (issue s).readByte c s.fcu.rssi
    finish v .ok s

/-- CONFIGURE (R201). -/
def execConfigure (s : State) : Host.Outcome State Fault Refusal := execConfigureIn Config.hw s

/-- RADIO_ON (R204). -/
def execRadioOn (s : State) : Host.Outcome State Fault Refusal := execRadioOnIn Config.hw s

/-- RADIO_OFF (R205). -/
def execRadioOff (s : State) : Host.Outcome State Fault Refusal := execRadioOffIn Config.hw s

/-- GET_RSSI (R206). -/
def execGetRssi (s : State) : Host.Outcome State Fault Refusal := execGetRssiIn Config.hw s

end Sys2Proof.Machine
end

