-- ==== Sys2Proof/Machine/FrameCodec.lean ====
section
/-! DEFINITION. The Frame Codec operations PAD, ENCODE_FRAME, DECODE_FRAME, CORRECT, EXTRACT_PAYLOAD
(41_frame_codec.md R140 to R145). The pipelines use the same buffer operations (R148). -/

namespace Sys2Proof.Machine

/-- `PAD <- MSG[0..len) ++ zeros(MAX_PAYLOAD - len)` (R141, 42_transmit.md R161 step 2). -/
def padBuffer (c : Config) (len : Nat) (s : State) : State :=
  let (v, s) := memRead c .msg 0 len s
  memWrite .pad 0 (v ++ List.replicate (c.maxPayload - len) 0x00#8) s

/-- `OUT[0..MAX_PAYLOAD) <- FRM[0..MAX_PAYLOAD)` (R145, 43_receive.md R183). -/
def extractBuffer (c : Config) (s : State) : State :=
  let (v, s) := memRead c .frm 0 c.maxPayload s
  memWrite .out 0 v s

/-- PAD (R141), for any configuration. -/
def execPadIn (c : Config) (len : Nat) (s : State) : Host.Outcome State Fault Refusal :=
  whenIdle s fun s =>
    if payloadTooLarge c len then finish 0x00#8 .payloadTooLarge (issue s)
    else finish 0x00#8 .ok (padBuffer c len (issue s))

/-- ENCODE_FRAME (R142), for any configuration. -/
def execEncodeFrameIn (c : Config) (s : State) : Host.Outcome State Fault Refusal :=
  whenIdle s fun s => finish 0x00#8 .ok (bcaEncode c (issue s))

/-- DECODE_FRAME (R143), for any configuration. -/
def execDecodeFrameIn (c : Config) (s : State) : Host.Outcome State Fault Refusal :=
  whenIdle s fun s =>
    let (syn, s) := bcaSyndromeNonZero c (bcaDecode c (issue s))
    finish (flagByte syn) .ok s

/-- CORRECT (R144), for any configuration. -/
def execCorrectIn (c : Config) (s : State) : Host.Outcome State Fault Refusal :=
  whenIdle s fun s =>
    let (ok, s) := bcaCorrect c (issue s)
    finish (flagByte ok) .ok s

/-- EXTRACT_PAYLOAD (R145), for any configuration. -/
def execExtractPayloadIn (c : Config) (s : State) : Host.Outcome State Fault Refusal :=
  whenIdle s fun s => finish 0x00#8 .ok (extractBuffer c (issue s))

/-- PAD (R141). -/
def execPad (len : Nat) (s : State) : Host.Outcome State Fault Refusal := execPadIn Config.hw len s

/-- ENCODE_FRAME (R142). -/
def execEncodeFrame (s : State) : Host.Outcome State Fault Refusal := execEncodeFrameIn Config.hw s

/-- DECODE_FRAME (R143). -/
def execDecodeFrame (s : State) : Host.Outcome State Fault Refusal := execDecodeFrameIn Config.hw s

/-- CORRECT (R144). -/
def execCorrect (s : State) : Host.Outcome State Fault Refusal := execCorrectIn Config.hw s

/-- EXTRACT_PAYLOAD (R145). -/
def execExtractPayload (s : State) : Host.Outcome State Fault Refusal := execExtractPayloadIn Config.hw s

end Sys2Proof.Machine
end

