-- ==== Sys2Proof/Machine/Receive.lean ====
section
/-! DEFINITION. The Receive Pipeline: TRY_RECEIVE (43_receive.md R175 to R190). -/

namespace Sys2Proof.Machine

/-- Steps 5 and 6 of R176: the syndrome, and the correction when it is nonzero. `f` are the flags so far. -/
def checkAndCorrect (c : Config) (f : Status) (s : State) : Status × State :=
  let (nonZero, s) := bcaSyndromeNonZero c s
  if nonZero then
    let (ok, s) := bcaCorrect c (s.setPhase .correcting)
    ({ f with attempted := true, uncorrectable := !ok },
      s.setPhase (if ok then .corrected else .uncorrectable))
  else (f, s.setPhase .clean)

/-- Steps 2 to 8 of R176, for a frame of reported size `rxSize`. Its decode is no DECODE_FRAME that a later CORRECT could
follow (41_frame_codec.md R147, 70_reset_and_hazards.md R262). -/
def receiveFrame (c : Config) (rxSize : Byte) (s : State) : State :=
  let (rssi, s) := taLastSignalStrength c s
  let s := s.setRssi rssi
  let f : Status := { Status.none with mismatch := sizeMismatch c.frameSize rxSize }
  let s := (bcaDecode c s).setPhase .decoded
  let (f, s) := checkAndCorrect c f s
  finish (Status.byte { f with received := true }) .ok (extractBuffer c s).endDecode

/-- TRY_RECEIVE (R176), for any configuration. -/
def execTryReceiveIn (c : Config) (s : State) : Host.Outcome State Fault Refusal :=
  whenIdle s fun s =>
    let (rx, s) := taReceive c s
    let s := s.setPhase .polled
    match rx with
    | none => finish Status.none.byte .ok (s.setPhase .noData)
    | some rxSize => receiveFrame c rxSize s

/-- TRY_RECEIVE (R176). -/
def execTryReceive (s : State) : Host.Outcome State Fault Refusal := execTryReceiveIn Config.hw s

end Sys2Proof.Machine
end

