-- ==== Sys2Proof/Machine/Transmit.lean ====
section
/-! DEFINITION. The Transmit Pipeline: TRANSMIT (42_transmit.md R160 to R167). -/

namespace Sys2Proof.Machine

/-- Step 5 of R161 and the completion. When `TA.waitSendComplete` never returns the command never completes:
`PHASE` stays `Busy`, `RES` and `ERR` keep their earlier values (R166). -/
def sendAndWait (c : Config) (s : State) : State :=
  let (confirmed, s) := taWaitSendComplete c (taSend c s)
  if confirmed then finish 0x00#8 .ok s else s

/-- TRANSMIT (R161), for any configuration. Steps 4 and 6 are diagnostics a model leaves out (R164). -/
def execTransmitIn (c : Config) (len : Nat) (s : State) : Host.Outcome State Fault Refusal :=
  whenIdle s fun s =>
    if payloadTooLarge c len then finish 0x00#8 .payloadTooLarge (issue s)
    else sendAndWait c (bcaEncode c (padBuffer c len (issue s)))

/-- TRANSMIT (R161). -/
def execTransmit (len : Nat) (s : State) : Host.Outcome State Fault Refusal := execTransmitIn Config.hw len s

end Sys2Proof.Machine
end

