-- ==== Sys2Proof/Machine/Dispatch.lean ====
section
/-! DEFINITION. One arm per command, each one direct call of its meaning. -/

namespace Sys2Proof.Machine

/-- A command issued in a state (30_encoding.md R85). -/
def exec (i : Instr) (s : State) : Host.Outcome State Fault Refusal :=
  match i with
  | .configure => Sys2Proof.Machine.execConfigure s
  | .transmit len => Sys2Proof.Machine.execTransmit len s
  | .tryReceive => Sys2Proof.Machine.execTryReceive s
  | .getRssi => Sys2Proof.Machine.execGetRssi s
  | .radioOn => Sys2Proof.Machine.execRadioOn s
  | .radioOff => Sys2Proof.Machine.execRadioOff s
  | .pad len => Sys2Proof.Machine.execPad len s
  | .encodeFrame => Sys2Proof.Machine.execEncodeFrame s
  | .decodeFrame => Sys2Proof.Machine.execDecodeFrame s
  | .correct => Sys2Proof.Machine.execCorrect s
  | .extractPayload => Sys2Proof.Machine.execExtractPayload s

end Sys2Proof.Machine
end

