-- ==== Sys2Proof/Machine/Environment.lean ====
section
/-! DEFINITION. What the outside does besides issuing commands: HOST writes of the windows, AIR's choices, the TA's next
answers, reset (20_memory.md R56, R67, 40_adapter_primitives.md R110, 70_reset_and_hazards.md R250). -/

namespace Sys2Proof.Machine

/-- A HOST write of one byte of a space: only while `PHASE = Idle` (R56, R257), and only inside it (R51, R53, R54). -/
def hostWriteIn (c : Config) (sp : Space) (i : Nat) (b : Byte) (s : State) : Host.Outcome State Fault Refusal :=
  if s.fcu.phase = .idle then
    if i < sp.size c then .next (memWrite sp i [b] s) else .fault .indexOutsideWindow
  else .refused .windowWhileRunning

/-- HOST writes `MSG[i]` (R51, R56). -/
def hostWriteMsg (i : Nat) (b : Byte) (s : State) : Host.Outcome State Fault Refusal :=
  hostWriteIn Config.hw .msg i b s

/-- HOST writes `OUT[i]` (R56). -/
def hostWriteOut (i : Nat) (b : Byte) (s : State) : Host.Outcome State Fault Refusal :=
  hostWriteIn Config.hw .out i b s

/-- The directive `.frm`, one byte: HOST sets `FRM[i]` (30_encoding.md R92). -/
def hostWriteFrm (i : Nat) (b : Byte) (s : State) : Host.Outcome State Fault Refusal :=
  hostWriteIn Config.hw .frm i b s

/-- AIR decides what the next `TA.receive` finds (R67). -/
def airDecides (p : Option RxUnit) (s : State) : State := s.setTa { s.ta with pending := .known p }

/-- The TA's next answer to `TA.initialize` (R113). -/
def probeWillAnswer (ok : Bool) (s : State) : State := s.setTa { s.ta with probeAnswer := .known ok }

/-- The TA's next answer to `TA.setFrequency` (R114). -/
def frequencyWillAnswer (ok : Bool) (s : State) : State := s.setTa { s.ta with frequencyAnswer := .known ok }

/-- Whether the TA confirms the next send (R119). -/
def confirmWillAnswer (ok : Bool) (s : State) : State := s.setTa { s.ta with confirmAnswer := .known ok }

/-- Reset from outside (R250, 10_state.md R37, R38): the FCU's reset values, and adapters of which nothing is known. -/
def resetMachine (s : State) : State := { s with fcu := Fcu.reset, bca := Bca.reset, ta := Ta.reset }

/-- With nothing from outside the FCU waits in `PHASE = Idle` (R251); with `PHASE` anything else, no step is
enabled (42_transmit.md R166). -/
def noInput (s : State) : Host.Outcome State Fault Refusal :=
  if s.fcu.phase = .idle then .next s else .fault .noEnabledStep

end Sys2Proof.Machine
end

