-- ==== Sys2Proof/Machine/Step.lean ====
section
/-! DEFINITION. One step of the machine: the outside's next input, a command word being decoded and run
(30_encoding.md R80, R88, R90). -/

namespace Sys2Proof.Machine

/-- A command word issued (R80): the decoder's verdict comes first (60_exceptions.md R229 a). -/
def stepCommand (w : CommandWord) (s : State) : Host.Outcome State Fault Refusal :=
  match decode w with
  | .ok i => exec i s
  | .error _ => illegalCommand s

/-- One input from outside. -/
def stepInput (x : Input) (s : State) : Host.Outcome State Fault Refusal :=
  match x with
  | .command w => stepCommand w s
  | .writeMsg i b => hostWriteMsg i b s
  | .writeOut i b => hostWriteOut i b s
  | .writeFrm i b => hostWriteFrm i b s
  | .air p => .next (airDecides p s)
  | .probe ok => .next (probeWillAnswer ok s)
  | .frequency ok => .next (frequencyWillAnswer ok s)
  | .confirm ok => .next (confirmWillAnswer ok s)
  | .reset => .next (resetMachine s)

/-- One step: the first input is taken and acts (log entry 6). -/
def step (s : State) : Host.Outcome State Fault Refusal :=
  match s.inputs with
  | [] => noInput s
  | x :: rest => stepInput x { s with inputs := rest }

/-- `s` with the command word that the table's number `w` stands for as what HOST issues next. -/
def State.withFetchWord (s : State) (nbits w : Nat) : State :=
  { s with inputs := .command (tableWord nbits w) :: s.inputs }

end Sys2Proof.Machine
end

