-- ==== Sys2Proof/Safety.lean ====
section
/-! DEFINITION. The terms in which claims are stated: what a space holds, the machine's invariant, what a safe run is. -/

namespace Sys2Proof.Machine

/-- The space begins with exactly these bytes, each of them specified. -/
def Memory.Holds (m : Memory) (xs : List Byte) : Prop := ∀ i (h : i < xs.length), Memory.peek m i = some xs[i]

/-- `xs` is what a read of the first `n` bytes gives: a specified byte as it stands, an unspecified one `any`
(10_state.md R37). -/
def Memory.ReadsAs (m : Memory) (n : Nat) (xs : List Byte) : Prop :=
  xs.length = n ∧ ∀ i b, i < n → Memory.peek m i = some b → xs[i]? = some b

/-- Every one of the first `n` bytes is specified. -/
def Memory.Filled (m : Memory) (n : Nat) : Prop := ∀ i, i < n → Memory.peek m i ≠ none

/-- From index `n` on, the two spaces read the same. -/
def Memory.SameFrom (m m' : Memory) (n : Nat) : Prop := ∀ i, n ≤ i → Memory.peek m' i = Memory.peek m i

/-- Memory in its canonical form and inside its space, for all four spaces (20_memory.md R50 to R54, R58). -/
def State.MemoryInv (c : Config) (s : State) : Prop :=
  ∀ sp : Space, Memory.wf (s.fcu.space sp) ∧ Memory.below (s.fcu.space sp) (sp.size c)

/-- Between steps `PHASE` is `Idle`, or `Busy` with a TRANSMIT waiting for its confirmation as the last thing that
happened (10_state.md R27, 42_transmit.md R166). -/
def State.PhaseInv (s : State) : Prop :=
  s.fcu.phase = .idle ∨ (s.fcu.phase = .busy ∧ s.trace.getLast? = some .taWaitSendComplete)

/-- `ERR` holds one of the four codes that a rule writes; `E_PHYSICAL_LINK` and the reserved codes never stand there
(60_exceptions.md R221, R226). -/
def State.ErrInv (s : State) : Prop := s.fcu.err.toNat ≤ 3

/-- After a decode of the present content, the syndrome is known and every byte of `FRM` is specified
(40_adapter_primitives.md R122). -/
def State.BcaInv (c : Config) (s : State) : Prop :=
  s.bca.fresh = true → s.bca.syn ≠ .unknown ∧ Memory.Filled s.fcu.frm c.frameSize

/-- The machine's invariant. -/
def State.Inv (c : Config) (s : State) : Prop :=
  s.MemoryInv c ∧ s.PhaseInv ∧ s.ErrInv ∧ s.BcaInv c

/-- A safe run never reaches a state from which the step faults. The two faults are a TRANSMIT that is never
confirmed and a HOST write outside a window. -/
def State.Safe (s : State) : Prop := ∀ r, step s ≠ .fault r

/-- The values `PHASE` took, in order. -/
def phasePath (es : List Event) : List Phase :=
  es.filterMap fun e => match e with
    | .phase p => some p
    | _ => none

/-- The calls made, in order. -/
def callsMade (es : List Event) : List Event :=
  es.filter fun e => match e with
    | .phase _ => false
    | _ => true

end Sys2Proof.Machine
end

