-- ==== Sys2Proof/Certificates/Slice0/Obligations.lean ====
section
/-! DEFINITION. The statements for the provers. `hw` is the hardware's own configuration, of which nothing is known but
its bounds, so that a statement about it holds for every parameter value and every block code. `trace` is the model's
record of the calls a rule's pseudocode makes and of the values of `PHASE` (notes/assumptions/16.md). The fields `inputs`,
`draws`, `bca.fresh` and the TA's own ones are the model's (6.md, 3.md, 13.md, 9.md to 12.md). -/

open Sys2Proof Sys2Proof.Machine

/-! ## Encoding -/

/-- Words written out from the patterns of R86, legal and illegal (95_test_vectors.md 3.1). -/
def Obligations.DecoderReadsSpecWords : Prop :=
  decode 0b0000000000000001#16 = .ok .configure ∧
  decode 0b0000011000000010#16 = .ok (.transmit 6) ∧
  decode 0b0000000000000011#16 = .ok .tryReceive ∧
  decode 0b0000000000000100#16 = .ok .getRssi ∧
  decode 0b0000000000000101#16 = .ok .radioOn ∧
  decode 0b0000000000000110#16 = .ok .radioOff ∧
  decode 0b1000000000001000#16 = .ok (.pad 128) ∧
  decode 0b0000000000001001#16 = .ok .encodeFrame ∧
  decode 0b0000000000001010#16 = .ok .decodeFrame ∧
  decode 0b0000000000001011#16 = .ok .correct ∧
  decode 0b0000000000001100#16 = .ok .extractPayload ∧
  decode 0b0000000000000000#16 = .error .reservedOpcode ∧
  decode 0b1111111111111111#16 = .error .zeroFieldNotZero ∧
  decode 0b0000000100000011#16 = .error .lengthNotTaken

/-- R87: a word is illegal exactly when `OP` is reserved, or `ZERO` is not 0, or `LEN` is not 0 in an operation that
takes no length. Here `OP`, `ZERO` and `LEN` are the word's number by remainder and quotient. -/
def Obligations.WordIsIllegalExactlyWhenNoPatternMatches : Prop :=
  ∀ w : CommandWord, (∃ e, decode w = .error e) ↔
    (w.toNat % 16 ∈ [0x0, 0x7, 0xD, 0xE, 0xF] ∨ w.toNat / 16 % 16 ≠ 0 ∨
      (w.toNat / 256 ≠ 0 ∧ w.toNat % 16 ∉ [0x2, 0x8]))

/-- Decoding an encoded well-formed command gives it back, as one word and as two bytes, low byte first. -/
def Obligations.DecodeOfEncodeIsTheCommand : Prop :=
  ∀ i : Instr, i.wellFormed = true →
    decode (encode i) = .ok i ∧
      ∀ rest, decodeBytes ((encode i).extractLsb' 0 8 :: (encode i).extractLsb' 8 8 :: rest) = .ok (i, rest)

/-- Each legal word has one meaning: what it decodes to is well formed and encodes to that word. -/
def Obligations.EncodeOfDecodeIsTheWord : Prop :=
  ∀ (w : CommandWord) (i : Instr), decode w = .ok i → i.wellFormed = true ∧ encode i = w

/-! ## The step -/

/-- A command word that HOST issues is taken from the inputs, decoded and run. `withFetchWord` issues it next. -/
def Obligations.StepRunsTheIssuedCommand : Prop :=
  (∀ (s : State) (w : CommandWord) (rest : List Input) (i : Instr),
    s.inputs = .command w :: rest → decode w = .ok i → step s = exec i { s with inputs := rest }) ∧
  (∀ (s : State) (i : Instr), i.wellFormed = true →
    step (s.withFetchWord 16 (encode i).toNat) = exec i s)

/-- R88: an illegal command word sets `RES` to 0 and `ERR` to E_ILLEGAL_COMMAND and does nothing else. -/
def Obligations.IllegalWordOnlyReports : Prop :=
  ∀ (s : State) (w : CommandWord) (rest : List Input) (e : DecodeError),
    s.inputs = .command w :: rest → decode w = .error e → s.fcu.phase = .idle →
      ∃ t, step s = .next t ∧ t.fcu = { s.fcu with res := 0x00#8, err := 0x03#8, phase := .idle } ∧
        t.bca = s.bca ∧ t.ta = s.ta ∧ callsMade t.trace = callsMade s.trace

/-- R256, R257: a command, legal or not, and a HOST write of a window have no meaning while `PHASE` is not `Idle`; the
model refuses them. -/
def Obligations.NothingIsAcceptedWhileRunning : Prop :=
  ∀ s : State, s.fcu.phase ≠ .idle →
    (∀ i, exec i s = .refused .commandWhileRunning) ∧
    (∀ w rest, s.inputs = .command w :: rest → step s = .refused .commandWhileRunning) ∧
    (∀ i b rest, s.inputs = .writeMsg i b :: rest → step s = .refused .windowWhileRunning) ∧
    (∀ i b rest, s.inputs = .writeOut i b :: rest → step s = .refused .windowWhileRunning) ∧
    (∀ i b rest, s.inputs = .writeFrm i b :: rest → step s = .refused .windowWhileRunning)

/-- HOST writes one byte of a window while `PHASE = Idle`: that byte changes and nothing else; outside the window there
is no byte and the model faults (log entry 21). The test directive `.frm` writes `FRM` so, and ends the freshness of the
last decode (log entries 32 and 13). -/
def Obligations.HostWritesOneWindowByte : Prop :=
  ∀ (s : State) (i : Nat) (b : Byte) (rest : List Input), s.fcu.phase = .idle →
    (s.inputs = .writeMsg i b :: rest → i < Config.hw.maxPayload →
      ∃ m, step s = .next { s with fcu := { s.fcu with msg := m }, inputs := rest } ∧
        ∀ j, Memory.peek m j = if j = i then some b else Memory.peek s.fcu.msg j) ∧
    (s.inputs = .writeOut i b :: rest → i < Config.hw.maxPayload →
      ∃ m, step s = .next { s with fcu := { s.fcu with out := m }, inputs := rest } ∧
        ∀ j, Memory.peek m j = if j = i then some b else Memory.peek s.fcu.out j) ∧
    (s.inputs = .writeFrm i b :: rest → i < Config.hw.frameSize →
      ∃ m, step s = .next
          { s with fcu := { s.fcu with frm := m }, bca := { s.bca with fresh := false }, inputs := rest } ∧
        ∀ j, Memory.peek m j = if j = i then some b else Memory.peek s.fcu.frm j) ∧
    (s.inputs = .writeMsg i b :: rest ∨ s.inputs = .writeOut i b :: rest → Config.hw.maxPayload ≤ i →
      step s = .fault .indexOutsideWindow) ∧
    (s.inputs = .writeFrm i b :: rest → Config.hw.frameSize ≤ i → step s = .fault .indexOutsideWindow)

/-- R251: with nothing from outside the idle FCU waits. R166: with `PHASE` not `Idle` there is no enabled step. -/
def Obligations.WithoutInputIdleWaitsAndBusyIsStuck : Prop :=
  ∀ s : State, s.inputs = [] →
    (s.fcu.phase = .idle → step s = .next s) ∧ (s.fcu.phase ≠ .idle → step s = .fault .noEnabledStep)

/-- R67, R113, R114, R119: what AIR and the TA decide sets the one field of the TA it is about and nothing else, whatever
`PHASE` is, so also while a TRANSMIT hangs (log entries 6, 8, 9, 10). -/
def Obligations.EnvironmentInputsSetOneFieldOfTheAdapter : Prop :=
  ∀ (s : State) (rest : List Input),
    (∀ p, s.inputs = .air p :: rest →
      step s = .next { s with ta := { s.ta with pending := .known p }, inputs := rest }) ∧
    (∀ ok, s.inputs = .probe ok :: rest →
      step s = .next { s with ta := { s.ta with probeAnswer := .known ok }, inputs := rest }) ∧
    (∀ ok, s.inputs = .frequency ok :: rest →
      step s = .next { s with ta := { s.ta with frequencyAnswer := .known ok }, inputs := rest }) ∧
    (∀ ok, s.inputs = .confirm ok :: rest →
      step s = .next { s with ta := { s.ta with confirmAnswer := .known ok }, inputs := rest })

/-! ## Reset -/

/-- R37, R250: the values of the reset table, each named, in the machine's first state and after a reset from outside, whatever ran before. -/
def Obligations.ResetEstablishesTheResetState : Prop :=
  (State.reset.fcu.phase = .idle ∧ State.reset.fcu.res = 0x00#8 ∧ State.reset.fcu.err = 0x00#8 ∧
    State.reset.fcu.power = .unknown ∧ State.reset.fcu.rssi = .unknown ∧
    State.reset.bca.syn = .unknown ∧ State.reset.ta.pending = .unknown ∧
    ∀ sp i, Memory.peek (State.reset.fcu.space sp) i = none) ∧
  ∀ (s : State) (rest : List Input), s.inputs = .reset :: rest →
    ∃ t, step s = .next t ∧ t.fcu = State.reset.fcu ∧ t.bca = State.reset.bca ∧ t.ta = State.reset.ta ∧
      t.inputs = rest

/-- The reset state meets the invariant. -/
def Obligations.ResetMeetsInvariant : Prop := State.reset.Inv Config.hw

/-- Every step keeps the invariant: the four spaces canonical and inside their sizes, `PHASE` idle or hung in a send,
`ERR` one of the four codes a rule writes, a fresh decode with a known syndrome and a filled `FRM`. -/
def Obligations.StepKeepsInvariant : Prop :=
  ∀ s t : State, s.Inv Config.hw → step s = .next t → t.Inv Config.hw

/-! ## PAD -/

/-- R141, both paths. A legal length: the specified Message bytes are copied, the rest of `PAD` is zero, nothing else
changes. An oversize one: only `RES` and `ERR` change. -/
def Obligations.PadCopiesZeroFillsOrRefuses : Prop :=
  ∀ (len : Nat) (s : State), s.fcu.phase = .idle →
    (len ≤ Config.hw.maxPayload →
      ∃ m t, Memory.ReadsAs s.fcu.msg len m ∧ exec (.pad len) s = .next t ∧
        Memory.Holds t.fcu.pad (m ++ List.replicate (Config.hw.maxPayload - len) 0x00#8) ∧
        Memory.SameFrom s.fcu.pad t.fcu.pad Config.hw.maxPayload ∧
        t.fcu = { s.fcu with pad := t.fcu.pad, res := 0x00#8, err := 0x00#8 } ∧ t.bca = s.bca ∧ t.ta = s.ta) ∧
    (Config.hw.maxPayload < len →
      ∃ t, exec (.pad len) s = .next t ∧ t.fcu = { s.fcu with res := 0x00#8, err := 0x01#8 } ∧
        t.bca = s.bca ∧ t.ta = s.ta)

/-- R146: re-padding an already padded buffer is idempotent. HOST copies `PAD` into `MSG` and issues PAD with any
length from the Message's up to `MAX_PAYLOAD`. -/
def Obligations.RepaddingIsIdempotent : Prop :=
  ∀ (len k : Nat) (s : State), s.fcu.phase = .idle → len ≤ k → k ≤ Config.hw.maxPayload →
    ∃ t, exec (.pad len) s = .next t ∧
      ∃ u, exec (.pad k) { t with fcu := { t.fcu with msg := t.fcu.pad } } = .next u ∧
        ∀ a, Memory.peek u.fcu.pad a = Memory.peek t.fcu.pad a

/-- R51: bytes of `MSG` at and above `LEN` are never read, and none at all by an oversize command: two states that differ
only there go to states that differ only there. -/
def Obligations.MessageBeyondLengthIsNotRead : Prop :=
  ∀ (len : Nat) (i : Instr) (s : State) (m : Memory), i = .pad len ∨ i = .transmit len → s.fcu.phase = .idle →
    (len ≤ Config.hw.maxPayload → ∀ a, a < len → Memory.peek m a = Memory.peek s.fcu.msg a) →
      ∃ t, exec i s = .next t ∧
        exec i { s with fcu := { s.fcu with msg := m } } = .next { t with fcu := { t.fcu with msg := m } }

/-! ## ENCODE_FRAME, DECODE_FRAME, CORRECT, EXTRACT_PAYLOAD -/

/-- R142: `FRM` becomes the encoding of the bytes of `PAD`; nothing else changes. -/
def Obligations.EncodeFrameFillsFrmFromPad : Prop :=
  ∀ s : State, s.fcu.phase = .idle →
    ∃ x t, Memory.ReadsAs s.fcu.pad Config.hw.maxPayload x ∧ exec .encodeFrame s = .next t ∧
      Memory.Holds t.fcu.frm (Config.hw.encode x) ∧
      Memory.SameFrom s.fcu.frm t.fcu.frm Config.hw.frameSize ∧
      t.fcu = { s.fcu with frm := t.fcu.frm, res := 0x00#8, err := 0x00#8 } ∧
      t.bca.syn = s.bca.syn ∧ t.ta = s.ta

/-- R142: the result depends on `PAD` alone, whatever else the two states hold. -/
def Obligations.EncodeFrameDependsOnPadAlone : Prop :=
  ∀ (x : List Byte) (s s' : State), x.length = Config.hw.maxPayload → s.fcu.phase = .idle → s'.fcu.phase = .idle →
    Memory.Holds s.fcu.pad x → Memory.Holds s'.fcu.pad x →
      ∃ t t', exec .encodeFrame s = .next t ∧ exec .encodeFrame s' = .next t' ∧
        ∀ a, a < Config.hw.frameSize →
          Memory.peek t.fcu.frm a = Memory.peek t'.fcu.frm a ∧ Memory.peek t.fcu.frm a ≠ none

/-- R143: `FRM` becomes the decoded buffer, `RES` the syndrome flag, and the syndrome is left in the BCA. -/
def Obligations.DecodeFrameLeavesSymbolsAndSyndrome : Prop :=
  ∀ s : State, s.fcu.phase = .idle →
    ∃ f t, Memory.ReadsAs s.fcu.frm Config.hw.frameSize f ∧ exec .decodeFrame s = .next t ∧
      Memory.Holds t.fcu.frm (Config.hw.decodeBuffer f) ∧
      Memory.SameFrom s.fcu.frm t.fcu.frm Config.hw.frameSize ∧
      t.fcu = { s.fcu with
        frm := t.fcu.frm
        res := if Config.hw.syn f = true then 0x01#8 else 0x00#8
        err := 0x00#8 } ∧
      t.bca = { syn := .known (Config.hw.syn f), fresh := true } ∧ t.ta = s.ta ∧ t.inputs = s.inputs ∧
      t.trace = s.trace ++
        [.phase .busy, .bcaDecode Config.hw.frameSize, .bcaSyndromeNonZero, .phase .idle]

/-- R144 after a decode of the same content: `RES` is the BCA's answer, and where it is true `FRM` holds the corrected
Symbols. Where it is false every byte of `FRM` is some byte of which nothing is said. -/
def Obligations.CorrectAfterDecodeAnswersTheCode : Prop :=
  ∀ (f : List Byte) (s : State), s.fcu.phase = .idle → s.bca.fresh = true →
    f.length = Config.hw.frameSize → Memory.Holds s.fcu.frm f →
      ∃ t, exec .correct s = .next t ∧
        t.fcu = { s.fcu with
          frm := t.fcu.frm
          res := if Config.hw.corOk f = true then 0x01#8 else 0x00#8
          err := 0x00#8 } ∧
        (Config.hw.corOk f = true → Memory.Holds t.fcu.frm (Config.hw.correctBuffer f)) ∧
        Memory.Filled t.fcu.frm Config.hw.frameSize

/-- CORRECT in any state (R144, R147): it completes with a truth value in `RES`, and changes `FRM`, `RES`, `ERR` and the
freshness of the decode only. -/
def Obligations.CorrectCompletesAndKeepsTheRest : Prop :=
  ∀ s : State, s.fcu.phase = .idle →
    ∃ ok t, exec .correct s = .next t ∧
      t.fcu = { s.fcu with
        frm := t.fcu.frm
        res := if ok = true then 0x01#8 else 0x00#8
        err := 0x00#8 } ∧
      Memory.Filled t.fcu.frm Config.hw.frameSize ∧
      Memory.SameFrom s.fcu.frm t.fcu.frm Config.hw.frameSize ∧
      t.bca = { s.bca with fresh := false } ∧ t.ta = s.ta ∧ t.inputs = s.inputs ∧
      t.trace = s.trace ++ [.phase .busy, .bcaCorrect Config.hw.frameSize 0, .phase .idle]

/-- R145: exactly `MAX_PAYLOAD` bytes of `FRM` are copied to `OUT`; nothing else changes. -/
def Obligations.ExtractPayloadCopiesFirstBytes : Prop :=
  ∀ s : State, s.fcu.phase = .idle →
    ∃ v t, Memory.ReadsAs s.fcu.frm Config.hw.maxPayload v ∧ exec .extractPayload s = .next t ∧
      Memory.Holds t.fcu.out v ∧ Memory.SameFrom s.fcu.out t.fcu.out Config.hw.maxPayload ∧
      t.fcu = { s.fcu with out := t.fcu.out, res := 0x00#8, err := 0x00#8 } ∧ t.bca = s.bca ∧ t.ta = s.ta

/-! ## TRANSMIT -/

/-- R161 with a legal length and a TA that confirms: `PAD` is the padded Message, `FRM` its encoding, which is handed to
the TA exactly once, and the command completes. -/
def Obligations.TransmitSendsTheEncodedMessage : Prop :=
  ∀ (len : Nat) (s : State), s.fcu.phase = .idle → len ≤ Config.hw.maxPayload →
    s.ta.confirmAnswer = .known true →
      ∃ m x t, Memory.ReadsAs s.fcu.msg len m ∧
        x = m ++ List.replicate (Config.hw.maxPayload - len) 0x00#8 ∧ exec (.transmit len) s = .next t ∧
        Memory.Holds t.fcu.pad x ∧ Memory.SameFrom s.fcu.pad t.fcu.pad Config.hw.maxPayload ∧
        Memory.Holds t.fcu.frm (Config.hw.encode x) ∧
        Memory.SameFrom s.fcu.frm t.fcu.frm Config.hw.frameSize ∧
        t.fcu = { s.fcu with pad := t.fcu.pad, frm := t.fcu.frm, res := 0x00#8, err := 0x00#8 } ∧
        t.bca = { s.bca with fresh := false } ∧
        t.ta = { s.ta with pending := .unknown, confirmAnswer := .unknown } ∧ t.inputs = s.inputs ∧
        t.trace = s.trace ++
          [.phase .busy, .bcaEncode x, .taSend (Config.hw.encode x) Config.hw.frameSize, .taWaitSendComplete,
            .phase .idle]

/-- R166 with a legal length and a TA that never confirms: `PAD` and `FRM` are written and the frame is handed over, `RES`
and `ERR` keep their values, `PHASE` stays `Busy`, and no step is enabled but the outside's. -/
def Obligations.TransmitHangsWhenNeverConfirmed : Prop :=
  ∀ (len : Nat) (s : State), s.fcu.phase = .idle → len ≤ Config.hw.maxPayload →
    s.ta.confirmAnswer = .known false →
      ∃ m x t, Memory.ReadsAs s.fcu.msg len m ∧
        x = m ++ List.replicate (Config.hw.maxPayload - len) 0x00#8 ∧ exec (.transmit len) s = .next t ∧
        Memory.Holds t.fcu.pad x ∧ Memory.SameFrom s.fcu.pad t.fcu.pad Config.hw.maxPayload ∧
        Memory.Holds t.fcu.frm (Config.hw.encode x) ∧
        Memory.SameFrom s.fcu.frm t.fcu.frm Config.hw.frameSize ∧
        t.fcu = { s.fcu with pad := t.fcu.pad, frm := t.fcu.frm, phase := .busy } ∧
        t.bca = { s.bca with fresh := false } ∧
        t.ta = { s.ta with pending := .unknown, confirmAnswer := .unknown } ∧ t.inputs = s.inputs ∧
        t.trace = s.trace ++
          [.phase .busy, .bcaEncode x, .taSend (Config.hw.encode x) Config.hw.frameSize, .taWaitSendComplete] ∧
        (t.inputs = [] → step t = .fault .noEnabledStep) ∧
        (∀ w rest, t.inputs = .command w :: rest → step t = .refused .commandWhileRunning)

/-- R162: an oversize TRANSMIT is refused: no adapter is called and only `RES` and `ERR` change. -/
def Obligations.OversizeTransmitIsRefused : Prop :=
  ∀ (len : Nat) (s : State), s.fcu.phase = .idle → Config.hw.maxPayload < len →
    exec (.transmit len) s = .next
      { s with
        fcu := { s.fcu with res := 0x00#8, err := 0x01#8 }
        trace := s.trace ++ [.phase .busy, .phase .idle] }

/-- R163: whatever the TA does, a TRANSMIT of a legal length either completes with E_OK or never completes. -/
def Obligations.TransmitCompletesOrHangs : Prop :=
  ∀ (len : Nat) (s : State), s.fcu.phase = .idle → len ≤ Config.hw.maxPayload →
    ∃ t, exec (.transmit len) s = .next t ∧
      ((t.fcu.phase = .idle ∧ t.fcu.res = 0x00#8 ∧ t.fcu.err = 0x00#8) ∨
        (t.fcu.phase = .busy ∧ t.fcu.res = s.fcu.res ∧ t.fcu.err = s.fcu.err))

/-- R161: two TRANSMITs of the same Message send the same bytes, whatever else the two states hold. -/
def Obligations.SameMessageSendsTheSameFrame : Prop :=
  ∀ (m : List Byte) (s s' : State), m.length ≤ Config.hw.maxPayload → s.fcu.phase = .idle → s'.fcu.phase = .idle →
    Memory.Holds s.fcu.msg m → Memory.Holds s'.fcu.msg m →
      ∃ t t' frame, exec (.transmit m.length) s = .next t ∧ exec (.transmit m.length) s' = .next t' ∧
        frame.length = Config.hw.frameSize ∧ Memory.Holds t.fcu.frm frame ∧ Memory.Holds t'.fcu.frm frame ∧
        .taSend frame Config.hw.frameSize ∈ t.trace.drop s.trace.length ∧
        .taSend frame Config.hw.frameSize ∈ t'.trace.drop s'.trace.length

/-- R148: TRANSMIT has the buffer effects of PAD then ENCODE_FRAME. -/
def Obligations.TransmitIsPadThenEncode : Prop :=
  ∀ (len : Nat) (s : State), s.fcu.phase = .idle → len ≤ Config.hw.maxPayload →
    ∃ t t1 t2, exec (.transmit len) s = .next t ∧ exec (.pad len) s = .next t1 ∧
      exec .encodeFrame t1 = .next t2 ∧ t.fcu.pad = t2.fcu.pad ∧ t.fcu.frm = t2.fcu.frm

/-! ## TRY_RECEIVE -/

/-- R177: a poll that finds no frame changes `RES` and `ERR` and nothing else of the FCU or the BCA, and makes one call. -/
def Obligations.EmptyPollIsSideEffectFree : Prop :=
  ∀ s : State, s.fcu.phase = .idle → s.ta.pending = .known none →
    exec .tryReceive s = .next
      { s with
        fcu := { s.fcu with res := 0x00#8, err := 0x00#8 }
        ta := { s.ta with pending := .unknown }
        trace := s.trace ++ [.taReceive, .phase .polled, .phase .noData, .phase .idle] }

/-- R177 in any state, whether AIR has decided or not: a TRY_RECEIVE whose status is 0 has changed `RES` and `ERR` only,
has made one call, and its status is 0 only then. -/
def Obligations.ReceiveThatFindsNothingChangesNothing : Prop :=
  ∀ s : State, s.fcu.phase = .idle →
    ∃ t, exec .tryReceive s = .next t ∧
      (t.fcu.res = 0x00#8 ↔
        t.trace = s.trace ++ [.taReceive, .phase .polled, .phase .noData, .phase .idle]) ∧
      (t.fcu.res = 0x00#8 → t.fcu = { s.fcu with res := 0x00#8, err := 0x00#8 } ∧ t.bca = s.bca)

/-- R176 with a frame pending: `f` is what the fetch left in `FRM`, `d` its decoding. Each flag has its own cause, `OUT`
is the first `MAX_PAYLOAD` bytes of `FRM` after the correction, `RS.rssi` the strength, and nothing else changes. -/
def Obligations.ReceivedFrameGivesStatusAndPayload : Prop :=
  ∀ (u : RxUnit) (s : State), s.fcu.phase = .idle → s.ta.pending = .known (some u) →
    ∃ f d t, f.length = Config.hw.frameSize ∧
      (∀ i b, i < u.size.toNat → i < Config.hw.frameSize → u.bytes[i]? = some b → f[i]? = some b) ∧
      d = Config.hw.decodeBuffer f ∧ exec .tryReceive s = .next t ∧
      t.fcu.res.toNat < 16 ∧ t.fcu.res.getLsbD 0 = true ∧ t.fcu.res.getLsbD 1 = Config.hw.syn f ∧
      t.fcu.res.getLsbD 2 = (Config.hw.syn f && !Config.hw.corOk d) ∧
      t.fcu.res.getLsbD 3 = decide (u.size.toNat ≠ Config.hw.frameSize) ∧
      (Config.hw.syn f = false → Memory.Holds t.fcu.frm d) ∧
      (Config.hw.syn f = true → Config.hw.corOk d = true → Memory.Holds t.fcu.frm (Config.hw.correctBuffer d)) ∧
      (∀ i, i < Config.hw.maxPayload →
        Memory.peek t.fcu.out i = Memory.peek t.fcu.frm i ∧ Memory.peek t.fcu.out i ≠ none) ∧
      Memory.SameFrom s.fcu.frm t.fcu.frm Config.hw.frameSize ∧
      Memory.SameFrom s.fcu.out t.fcu.out Config.hw.maxPayload ∧
      t.fcu = { s.fcu with
        res := t.fcu.res, err := 0x00#8, rssi := .known u.rssi, frm := t.fcu.frm, out := t.fcu.out } ∧
      t.bca = { syn := .known (Config.hw.syn f), fresh := false } ∧
      t.ta = { s.ta with pending := .unknown, lastRssi := .known u.rssi } ∧ t.inputs = s.inputs

/-- R183, R178 in every state, whether AIR has decided or not: a TRY_RECEIVE that reports a message leaves every byte of
`FRM` specified, the first `MAX_PAYLOAD` of them in `OUT`, a known strength in `RS.rssi`, and no decode that a CORRECT
may follow (R262, log entry 13). -/
def Obligations.AnyArrivalDeliversFrmInOut : Prop :=
  ∀ s : State, s.fcu.phase = .idle →
    ∃ t, exec .tryReceive s = .next t ∧
      (t.fcu.res.getLsbD 0 = true →
        Memory.Filled t.fcu.frm Config.hw.frameSize ∧
        (∀ i, i < Config.hw.maxPayload →
          Memory.peek t.fcu.out i = Memory.peek t.fcu.frm i ∧ Memory.peek t.fcu.out i ≠ none) ∧
        Memory.SameFrom s.fcu.frm t.fcu.frm Config.hw.frameSize ∧
        Memory.SameFrom s.fcu.out t.fcu.out Config.hw.maxPayload ∧
        t.fcu.rssi ≠ .unknown ∧ t.bca.fresh = false)

/-- R29: in every state, whatever the adapters answer, TRY_RECEIVE completes with one of exactly seven statuses and
E_OK. -/
def Obligations.ReceiveStatusIsOneOfSeven : Prop :=
  ∀ s : State, s.fcu.phase = .idle →
    ∃ t, exec .tryReceive s = .next t ∧ t.fcu.phase = .idle ∧ t.fcu.err = 0x00#8 ∧
      t.fcu.res ∈ [0x00#8, 0x01#8, 0x03#8, 0x07#8, 0x09#8, 0x0B#8, 0x0F#8]

/-- R187: the path through `PHASE`, the calls made, and the statuses each terminal name corresponds to. -/
def Obligations.ReceivePathFollowsTheStateMachine : Prop :=
  ∀ s : State, s.fcu.phase = .idle →
    ∃ t es, exec .tryReceive s = .next t ∧ t.trace = s.trace ++ es ∧
      ((phasePath es = [.polled, .noData, .idle] ∧ t.fcu.res = 0x00#8 ∧ callsMade es = [.taReceive]) ∨
        (phasePath es = [.polled, .decoded, .clean, .idle] ∧ t.fcu.res ∈ [0x01#8, 0x09#8] ∧
          callsMade es = [.taReceive, .taLastSignalStrength, .bcaDecode Config.hw.frameSize, .bcaSyndromeNonZero]) ∨
        (phasePath es = [.polled, .decoded, .correcting, .corrected, .idle] ∧ t.fcu.res ∈ [0x03#8, 0x0B#8] ∧
          callsMade es = [.taReceive, .taLastSignalStrength, .bcaDecode Config.hw.frameSize, .bcaSyndromeNonZero,
            .bcaCorrect Config.hw.frameSize 0]) ∨
        (phasePath es = [.polled, .decoded, .correcting, .uncorrectable, .idle] ∧ t.fcu.res ∈ [0x07#8, 0x0F#8] ∧
          callsMade es = [.taReceive, .taLastSignalStrength, .bcaDecode Config.hw.frameSize, .bcaSyndromeNonZero,
            .bcaCorrect Config.hw.frameSize 0]))

/-- R148: from the fetch on, TRY_RECEIVE has the buffer effects of DECODE_FRAME, then CORRECT when `SYN = 1`, then
EXTRACT_PAYLOAD: in `FRM` and in `OUT`. Where the correction fails the bytes are free values, so they are compared on the
other paths. -/
def Obligations.ReceiveIsDecodeCorrectExtract : Prop :=
  ∀ (u : RxUnit) (s : State), s.fcu.phase = .idle → s.ta.pending = .known (some u) →
    ∃ t t1, exec .tryReceive s = .next t ∧ exec .decodeFrame (taFetch Config.hw u s) = .next t1 ∧
      (t1.fcu.res = 0x00#8 → ∃ t3, exec .extractPayload t1 = .next t3 ∧
        ∀ a, Memory.peek t.fcu.frm a = Memory.peek t3.fcu.frm a ∧
          Memory.peek t.fcu.out a = Memory.peek t3.fcu.out a) ∧
      (t1.fcu.res = 0x01#8 → ∃ t2 t3, exec .correct t1 = .next t2 ∧ exec .extractPayload t2 = .next t3 ∧
        t.fcu.res.getLsbD 2 = !t2.fcu.res.getLsbD 0 ∧
        (t2.fcu.res = 0x01#8 →
          ∀ a, Memory.peek t.fcu.frm a = Memory.peek t3.fcu.frm a ∧
            Memory.peek t.fcu.out a = Memory.peek t3.fcu.out a))

/-! ## Lifecycle -/

/-- R201: the eight calls in order, `RS.power` ends on, both answers in `RES`, the warning in `ERR` when either is false;
the answers are the TA's where they are known and unconstrained otherwise. -/
def Obligations.ConfigureReportsBothChecks : Prop :=
  ∀ s : State, s.fcu.phase = .idle →
    ∃ p q t, (∀ b, s.ta.probeAnswer = .known b → p = b) ∧ (∀ b, s.ta.frequencyAnswer = .known b → q = b) ∧
      exec .configure s = .next t ∧
      t.fcu = { s.fcu with
        power := .on
        res := (if q = true then 0x02#8 else 0x00#8) + (if p = true then 0x01#8 else 0x00#8)
        err := if p = true ∧ q = true then 0x00#8 else 0x02#8 } ∧
      t.bca = s.bca ∧ t.inputs = s.inputs ∧ t.ta.line = .on ∧
      t.trace = s.trace ++
        [.phase .busy, .platInitBus, .taPowerOff, .platDelay Config.hw.settleDelay, .taPowerOn,
          .taInitialize Config.hw.frameSize, .taSetFrequency Config.hw.freqMhz,
          .taSetModemProfile Config.hw.modemProfile, .taSetTransmitPower Config.hw.txPowerMax, .phase .idle]

/-- R204: RADIO_ON calls `TA.powerOn` once and records `on`; nothing else of the FCU changes. -/
def Obligations.RadioOnRaisesThePowerRecord : Prop :=
  ∀ s : State, s.fcu.phase = .idle →
    ∃ t, exec .radioOn s = .next t ∧
      t.fcu = { s.fcu with power := .on, res := 0x00#8, err := 0x00#8 } ∧ t.bca = s.bca ∧ t.ta.line = .on ∧
      t.trace = s.trace ++ [.phase .busy, .taPowerOn, .phase .idle]

/-- R205: RADIO_OFF calls `TA.powerOff` once and records `off`; nothing else of the FCU changes. -/
def Obligations.RadioOffLowersThePowerRecord : Prop :=
  ∀ s : State, s.fcu.phase = .idle →
    ∃ t, exec .radioOff s = .next t ∧
      t.fcu = { s.fcu with power := .off, res := 0x00#8, err := 0x00#8 } ∧ t.bca = s.bca ∧ t.ta.line = .off ∧
      t.trace = s.trace ++ [.phase .busy, .taPowerOff, .phase .idle]

/-- R206: GET_RSSI returns the FCU's own record, some byte when it is unknown, does not consume it and calls no
adapter. -/
def Obligations.GetRssiReturnsTheRecord : Prop :=
  ∀ s : State, s.fcu.phase = .idle →
    ∃ v t, (∀ b, s.fcu.rssi = .known b → v = b) ∧ exec .getRssi s = .next t ∧
      t.fcu = { s.fcu with res := v, err := 0x00#8 } ∧ t.bca = s.bca ∧ t.ta = s.ta ∧
      t.trace = s.trace ++ [.phase .busy, .phase .idle]

/-- What the lifecycle commands leave in the TA's own configuration (10_state.md R33 d), the model's record of it (log
entries 9, 10, 12): the operands handed over, `unknown` after a failed check or while the radio is off. -/
def Obligations.LifecycleCommandsWriteTheAdapterConfiguration : Prop :=
  ∀ s : State, s.fcu.phase = .idle →
    (∃ p q t, (∀ b, s.ta.probeAnswer = .known b → p = b) ∧ (∀ b, s.ta.frequencyAnswer = .known b → q = b) ∧
      exec .configure s = .next t ∧
      t.ta = { s.ta with
        pending := .unknown
        line := .on
        frameSize := if p = true then .known Config.hw.frameSize else .unknown
        frequency := if q = true then .known Config.hw.freqMhz else .unknown
        modemProfile := .known Config.hw.modemProfile
        transmitPower := .known Config.hw.txPowerMax
        probeAnswer := .unknown
        frequencyAnswer := .unknown }) ∧
    (∃ t, exec .radioOn s = .next t ∧ t.ta = { s.ta with pending := .unknown, line := .on }) ∧
    (∃ t, exec .radioOff s = .next t ∧
      t.ta = { s.ta with
        pending := .unknown
        line := .off
        frameSize := .unknown
        frequency := .unknown
        modemProfile := .unknown
        transmitPower := .unknown })

/-! ## The whole command set -/

/-- R36: the calls that PAD, ENCODE_FRAME, EXTRACT_PAYLOAD, GET_RSSI, RADIO_ON and RADIO_OFF make, in the model's record of
them (log entry 16), with the values of `PHASE` on the way; the outside's next inputs are untouched. -/
def Obligations.SimpleCommandsMakeExactlyTheirCalls : Prop :=
  ∀ s : State, s.fcu.phase = .idle →
    (∀ i, (∃ len, i = .pad len) ∨ i = .extractPayload ∨ i = .getRssi →
      ∃ t, exec i s = .next t ∧ t.trace = s.trace ++ [.phase .busy, .phase .idle] ∧ t.inputs = s.inputs) ∧
    (∃ x t, Memory.ReadsAs s.fcu.pad Config.hw.maxPayload x ∧ exec .encodeFrame s = .next t ∧
      t.trace = s.trace ++ [.phase .busy, .bcaEncode x, .phase .idle] ∧ t.inputs = s.inputs ∧
      t.bca = { s.bca with fresh := false }) ∧
    (∃ t, exec .radioOn s = .next t ∧ t.trace = s.trace ++ [.phase .busy, .taPowerOn, .phase .idle] ∧
      t.inputs = s.inputs) ∧
    (∃ t, exec .radioOff s = .next t ∧ t.trace = s.trace ++ [.phase .busy, .taPowerOff, .phase .idle] ∧
      t.inputs = s.inputs)

/-- R220: no command ever stops the machine; issued while idle every command goes on to a next state. -/
def Obligations.CommandsNeverStopTheMachine : Prop :=
  ∀ (i : Instr) (s : State),
    (∀ r, exec i s ≠ .fault r) ∧ (s.fcu.phase = .idle → ∃ t, exec i s = .next t)

/-- R27, R265: every command but a TRANSMIT ends with `PHASE = Idle`. -/
def Obligations.EveryCommandButTransmitReturnsToIdle : Prop :=
  ∀ (i : Instr) (s : State), s.fcu.phase = .idle → (∀ len, i ≠ .transmit len) →
    ∃ t, exec i s = .next t ∧ t.fcu.phase = .idle

/-- R21: `RS.power` is written by CONFIGURE, RADIO_ON and RADIO_OFF and by no other command. -/
def Obligations.OnlyLifecycleCommandsWritePower : Prop :=
  ∀ (i : Instr) (s t : State), exec i s = .next t →
    i ≠ .configure → i ≠ .radioOn → i ≠ .radioOff → t.fcu.power = s.fcu.power

/-- R22: `RS.rssi` is written by a TRY_RECEIVE that found a frame and by nothing else. -/
def Obligations.OnlyAnArrivalWritesRssi : Prop :=
  ∀ (i : Instr) (s t : State), exec i s = .next t →
    (i = .tryReceive ∧ t.fcu.res.getLsbD 0 = true ∧ t.fcu.rssi ≠ .unknown) ∨ t.fcu.rssi = s.fcu.rssi

/-- R36, R51 to R54: which command writes which buffer. No command writes `MSG`. A TRY_RECEIVE that found no frame
writes none. -/
def Obligations.BufferWritersFollowTheAccessTable : Prop :=
  ∀ (i : Instr) (s t : State), exec i s = .next t →
    t.fcu.msg = s.fcu.msg ∧
    ((∀ len, i ≠ .pad len ∧ i ≠ .transmit len) → t.fcu.pad = s.fcu.pad) ∧
    ((∀ len, i ≠ .transmit len) → i ≠ .encodeFrame → i ≠ .decodeFrame → i ≠ .correct → i ≠ .tryReceive →
      t.fcu.frm = s.fcu.frm) ∧
    (i ≠ .extractPayload → i ≠ .tryReceive → t.fcu.out = s.fcu.out) ∧
    (i = .tryReceive → t.fcu.res = 0x00#8 → t.fcu.frm = s.fcu.frm ∧ t.fcu.out = s.fcu.out)

/-- R21, R165, R190: no command reads `RS.power`: two states that differ only there go to states that differ at most
there. -/
def Obligations.PowerRecordSteersNothing : Prop :=
  ∀ (i : Instr) (s : State) (p q : Power), s.fcu.phase = .idle →
    ∃ t t', exec i s = .next t ∧ exec i { s with fcu := { s.fcu with power := p } } = .next t' ∧
      ({ t' with fcu := { t'.fcu with power := q } } : State) = { t with fcu := { t.fcu with power := q } }

/-- R23, R24: `RES` and `ERR` are not sticky: what they held before has no effect on a command that completes. -/
def Obligations.EarlierResultsHaveNoEffect : Prop :=
  ∀ (i : Instr) (s t : State) (r e : Byte), exec i s = .next t → t.fcu.phase = .idle →
    exec i { s with fcu := { s.fcu with res := r, err := e } } = .next t

/-! ## A link of two stations, for every configuration -/

/-- R125 carried by the pipelines: under the round-trip contract, a Message sent by one station and received unchanged by
another comes back padded, with the status `received` alone. -/
def Obligations.CleanLinkDeliversTheMessage : Prop :=
  ∀ (c : Config) (m : List Byte) (s : State), c.Wf → c.RoundTrip → m.length ≤ c.maxPayload →
    s.fcu.phase = .idle → s.ta.confirmAnswer = .known true → Memory.Holds s.fcu.msg m →
      ∃ t frame, execTransmitIn c m.length s = .next t ∧ t.fcu.phase = .idle ∧ frame.length = c.frameSize ∧
        .taSend frame c.frameSize ∈ t.trace.drop s.trace.length ∧
        ∀ (r : Byte) (s2 : State), s2.fcu.phase = .idle →
          s2.ta.pending = .known (some ⟨frame, BitVec.ofNat 8 c.frameSize, r⟩) →
            ∃ t2, execTryReceiveIn c s2 = .next t2 ∧ t2.fcu.res = 0x01#8 ∧ t2.fcu.rssi = .known r ∧
              Memory.Holds t2.fcu.out (m ++ List.replicate (c.maxPayload - m.length) 0x00#8)

/-- R126 carried by the pipelines: under the correction contract, the same with 1 to `T_CORRECT` byte positions of the
frame changed on the way gives the same `OUT`, with the status `received` and `correction invoked`. -/
def Obligations.CorruptedLinkWithinCapacityDeliversTheMessage : Prop :=
  ∀ (c : Config) (m : List Byte) (s : State), c.Wf → c.CorrectsWithinCapacity → m.length ≤ c.maxPayload →
    s.fcu.phase = .idle → s.ta.confirmAnswer = .known true → Memory.Holds s.fcu.msg m →
      ∃ t frame, execTransmitIn c m.length s = .next t ∧ t.fcu.phase = .idle ∧ frame.length = c.frameSize ∧
        .taSend frame c.frameSize ∈ t.trace.drop s.trace.length ∧
        ∀ (g : List Byte) (r : Byte) (s2 : State), g.length = c.frameSize →
          1 ≤ changedPositions g frame → changedPositions g frame ≤ c.tCorrect → s2.fcu.phase = .idle →
          s2.ta.pending = .known (some ⟨g, BitVec.ofNat 8 c.frameSize, r⟩) →
            ∃ t2, execTryReceiveIn c s2 = .next t2 ∧ t2.fcu.res = 0x03#8 ∧ t2.fcu.rssi = .known r ∧
              Memory.Holds t2.fcu.out (m ++ List.replicate (c.maxPayload - m.length) 0x00#8)

/-- R127 as the named hypothesis: under it a frame changed in more than `T_CORRECT` byte positions is received with the
uncorrectable flag, status `0x07`. -/
def Obligations.BeyondCapacityFrameIsFlagged : Prop :=
  ∀ (c : Config) (x g : List Byte) (r : Byte) (s : State), c.Wf → c.BeyondCapacityDetected →
    x.length = c.maxPayload → g.length = c.frameSize → c.tCorrect < changedPositions g (c.encode x) →
      s.fcu.phase = .idle → s.ta.pending = .known (some ⟨g, BitVec.ofNat 8 c.frameSize, r⟩) →
        ∃ t, execTryReceiveIn c s = .next t ∧ t.fcu.res = 0x07#8 ∧ t.fcu.rssi = .known r

/-- Why R127 may not be assumed of an adapter: read literally it contradicts the two contracts, in every
configuration. -/
def Obligations.BeyondCapacityPropertyContradictsTheContracts : Prop :=
  ∀ c : Config, c.Wf → c.RoundTrip → c.CorrectsWithinCapacity → ¬ c.BeyondCapacityDetected

/-- A frame that one station's TRANSMIT hands over, received unchanged by another: what `exec` answers on both sides, by
what the hardware's own code says of that frame, with no contract assumed. It ties the statements over every configuration
to the machine. -/
def Obligations.SentFrameIsReceivedAsTheCodeSays : Prop :=
  ∀ (m : List Byte) (r : Byte) (s s2 : State) (x f : List Byte), m.length ≤ Config.hw.maxPayload →
    x = m ++ List.replicate (Config.hw.maxPayload - m.length) 0x00#8 → f = Config.hw.encode x →
    s.fcu.phase = .idle → s.ta.confirmAnswer = .known true → Memory.Holds s.fcu.msg m → s2.fcu.phase = .idle →
    s2.ta.pending = .known (some ⟨f, BitVec.ofNat 8 Config.hw.frameSize, r⟩) →
      ∃ t t2, exec (.transmit m.length) s = .next t ∧ t.fcu.phase = .idle ∧
        .taSend f Config.hw.frameSize ∈ t.trace.drop s.trace.length ∧
        exec .tryReceive s2 = .next t2 ∧ t2.fcu.rssi = .known r ∧
        ((Config.hw.syn f = false ∧ t2.fcu.res = 0x01#8 ∧
            Memory.Holds t2.fcu.out ((Config.hw.decodeBuffer f).take Config.hw.maxPayload)) ∨
          (Config.hw.syn f = true ∧ Config.hw.corOk (Config.hw.decodeBuffer f) = true ∧ t2.fcu.res = 0x03#8 ∧
            Memory.Holds t2.fcu.out
              ((Config.hw.correctBuffer (Config.hw.decodeBuffer f)).take Config.hw.maxPayload)) ∨
          (Config.hw.syn f = true ∧ Config.hw.corOk (Config.hw.decodeBuffer f) = false ∧ t2.fcu.res = 0x07#8))
end

