-- ==== Sys2Proof/Laws/Memory.lean ====
section
/-! SUPPORT. The laws of one space: a byte read after a write, what a run of writes leaves, and that every write keeps
the canonical form and stays inside the space. -/

namespace Sys2Proof.Machine

@[simp] theorem Memory.peek_nil (i : Nat) : Memory.peek [] i = none := rfl

/-- Read after write, at the same index and at another one. -/
theorem Memory.peek_poke (m : Memory) (i : Nat) (b : Byte) (j : Nat) :
    Memory.peek (Memory.poke m i b) j = if j = i then some b else Memory.peek m j := by
  induction m with
  | nil =>
    by_cases h : j = i
    · simp [poke, peek, h]
    · have h' : ¬ i = j := fun e => h e.symm
      simp [poke, peek, h, h']
  | cons x m ih =>
    obtain ⟨a, v⟩ := x
    by_cases h : j = i
    · subst h
      by_cases h1 : j < a
      · simp [poke, peek, h1]
      · by_cases h2 : j = a
        · simp [poke, peek, h2]
        · have h3 : ¬ a = j := fun e => h2 e.symm
          simp [poke, peek, h1, h2, h3, ih]
    · have h' : ¬ i = j := fun e => h e.symm
      by_cases h1 : i < a
      · simp [poke, peek, h1, h, h']
      · by_cases h2 : i = a
        · have h3 : ¬ a = j := h2 ▸ h'
          simp [poke, peek, h2, h3, h2 ▸ h]
        · by_cases h3 : a = j
          · subst h3
            simp [poke, peek, h1, h2, h]
          · simp [poke, peek, h1, h2, h3, ih, h]

/-- What a run of writes leaves at an index. -/
theorem Memory.peek_pokeAll (bs : List Byte) : ∀ (m : Memory) (i j : Nat),
    Memory.peek (Memory.pokeAll m i bs) j =
      if i ≤ j then (if h : j - i < bs.length then some bs[j - i] else Memory.peek m j) else Memory.peek m j := by
  induction bs with
  | nil => intro m i j; simp [pokeAll]
  | cons b bs ih =>
    intro m i j
    simp only [pokeAll, ih, peek_poke, List.length_cons]
    by_cases hij : i = j
    · subst hij; simp
    · by_cases hlt : i ≤ j
      · have h1 : i + 1 ≤ j := by omega
        have h2 : j - i = (j - (i + 1)) + 1 := by omega
        have h3 : ¬ j = i := by omega
        simp only [hlt, h1, h2, h3, if_true, if_false, List.getElem_cons_succ, Nat.add_lt_add_iff_right]
      · have h1 : ¬ i + 1 ≤ j := by omega
        have h3 : ¬ j = i := by omega
        simp [hlt, h1, h3]

/-- A run of writes from index 0. -/
theorem Memory.peek_pokeAll_zero (m : Memory) (bs : List Byte) (j : Nat) :
    Memory.peek (Memory.pokeAll m 0 bs) j = if h : j < bs.length then some bs[j] else Memory.peek m j := by
  simp [peek_pokeAll]

/-- The bytes written are the bytes held. -/
theorem Memory.holds_pokeAll (m : Memory) (bs : List Byte) : Memory.Holds (Memory.pokeAll m 0 bs) bs := by
  intro i h
  simp [peek_pokeAll_zero, h]

/-- Beyond the bytes written nothing changes. -/
theorem Memory.sameFrom_pokeAll (m : Memory) (bs : List Byte) (n : Nat) (h : bs.length ≤ n) :
    Memory.SameFrom m (Memory.pokeAll m 0 bs) n := by
  intro i hi
  have : ¬ i < bs.length := by omega
  simp [peek_pokeAll_zero, this]

/-- A space that holds `n` bytes has its first `n` bytes specified. -/
theorem Memory.Holds.filled {m : Memory} {xs : List Byte} (h : Memory.Holds m xs) : Memory.Filled m xs.length := by
  intro i hi
  simp [h i hi]

/-- What is read of a space that holds the bytes. -/
theorem Memory.Holds.readsAs_eq {m : Memory} {xs ys : List Byte} (h : Memory.Holds m xs)
    (hy : Memory.ReadsAs m xs.length ys) : ys = xs := by
  apply List.ext_getElem hy.1
  intro i h1 h2
  have := hy.2 i _ h2 (h i h2)
  simpa [List.getElem?_eq_getElem h1] using this

/-- Every index of a written space was there or is the written one. -/
theorem Memory.mem_poke {m : Memory} {i : Nat} {b : Byte} {x : Host.Cell} (h : x ∈ Memory.poke m i b) :
    x ∈ m ∨ x = (i, b) := by
  induction m with
  | nil => simp_all [poke]
  | cons y m ih =>
    obtain ⟨a, v⟩ := y
    simp only [poke] at h
    split_ifs at h <;> simp only [List.mem_cons] at h ⊢ <;> tauto

/-- One write keeps the canonical form. -/
theorem Memory.wf_poke {m : Memory} (h : Memory.wf m) (i : Nat) (b : Byte) : Memory.wf (Memory.poke m i b) := by
  induction m with
  | nil => simp [poke, wf]
  | cons y m ih =>
    obtain ⟨a, v⟩ := y
    simp only [wf, List.pairwise_cons] at h
    simp only [poke]
    split_ifs with h1 h2
    · simp only [wf, List.pairwise_cons, List.mem_cons]
      refine ⟨?_, h.1, h.2⟩
      rintro x (rfl | hx)
      · exact h1
      · exact lt_trans h1 (h.1 x hx)
    · subst h2
      simpa only [wf, List.pairwise_cons] using h
    · simp only [wf, List.pairwise_cons]
      refine ⟨?_, ih h.2⟩
      intro x hx
      rcases mem_poke hx with hx | rfl
      · exact h.1 x hx
      · show a < i; omega

/-- A run of writes keeps the canonical form. -/
theorem Memory.wf_pokeAll (bs : List Byte) : ∀ {m : Memory} (i : Nat), Memory.wf m →
    Memory.wf (Memory.pokeAll m i bs) := by
  induction bs with
  | nil => intro m i h; exact h
  | cons b bs ih => intro m i h; exact ih (i + 1) (wf_poke h i b)

/-- A run of writes inside a space stays inside it. -/
theorem Memory.below_pokeAll (bs : List Byte) : ∀ {m : Memory} (i n : Nat), Memory.below m n →
    i + bs.length ≤ n → Memory.below (Memory.pokeAll m i bs) n := by
  induction bs with
  | nil => intro m i n h _; exact h
  | cons b bs ih =>
    intro m i n h hn
    simp only [List.length_cons] at hn
    refine ih (i + 1) n ?_ (by omega)
    intro x hx
    rcases mem_poke hx with hx | rfl
    · exact h x hx
    · show i < n; omega

/-- A byte is listed exactly where it is specified. -/
theorem Memory.peek_none_of_below {m : Memory} {n i : Nat} (h : Memory.below m n) (hi : n ≤ i) :
    Memory.peek m i = none := by
  induction m with
  | nil => rfl
  | cons x m ih =>
    obtain ⟨a, v⟩ := x
    have ha : a < n := h (a, v) (by simp)
    have : ¬ a = i := by omega
    simp only [peek, this, if_false]
    exact ih fun y hy => h y (by simp [hy])

end Sys2Proof.Machine
end

