-- ==== Sys2Proof/Laws/State.lean ====
section
/-! SUPPORT. One lemma per field per update of the state, each by `rfl`, so that no later proof unfolds an update. -/

namespace Sys2Proof.Machine

@[simp] theorem State.emit_fcu (s : State) (e : Event) : (s.emit e).fcu = s.fcu := rfl
@[simp] theorem State.emit_bca (s : State) (e : Event) : (s.emit e).bca = s.bca := rfl
@[simp] theorem State.emit_ta (s : State) (e : Event) : (s.emit e).ta = s.ta := rfl
@[simp] theorem State.emit_inputs (s : State) (e : Event) : (s.emit e).inputs = s.inputs := rfl
@[simp] theorem State.emit_trace (s : State) (e : Event) : (s.emit e).trace = s.trace ++ [e] := rfl
@[simp] theorem State.emit_draws (s : State) (e : Event) : (s.emit e).draws = s.draws := rfl

@[simp] theorem State.setPhase_fcu (s : State) (p : Phase) : (s.setPhase p).fcu = { s.fcu with phase := p } := rfl
@[simp] theorem State.setPhase_bca (s : State) (p : Phase) : (s.setPhase p).bca = s.bca := rfl
@[simp] theorem State.setPhase_ta (s : State) (p : Phase) : (s.setPhase p).ta = s.ta := rfl
@[simp] theorem State.setPhase_inputs (s : State) (p : Phase) : (s.setPhase p).inputs = s.inputs := rfl
@[simp] theorem State.setPhase_trace (s : State) (p : Phase) : (s.setPhase p).trace = s.trace ++ [.phase p] := rfl
@[simp] theorem State.setPhase_draws (s : State) (p : Phase) : (s.setPhase p).draws = s.draws := rfl

@[simp] theorem State.setRes_fcu (s : State) (v : Byte) : (s.setRes v).fcu = { s.fcu with res := v } := rfl
@[simp] theorem State.setRes_bca (s : State) (v : Byte) : (s.setRes v).bca = s.bca := rfl
@[simp] theorem State.setRes_ta (s : State) (v : Byte) : (s.setRes v).ta = s.ta := rfl
@[simp] theorem State.setRes_inputs (s : State) (v : Byte) : (s.setRes v).inputs = s.inputs := rfl
@[simp] theorem State.setRes_trace (s : State) (v : Byte) : (s.setRes v).trace = s.trace := rfl
@[simp] theorem State.setRes_draws (s : State) (v : Byte) : (s.setRes v).draws = s.draws := rfl

@[simp] theorem State.setErr_fcu (s : State) (v : Byte) : (s.setErr v).fcu = { s.fcu with err := v } := rfl
@[simp] theorem State.setErr_bca (s : State) (v : Byte) : (s.setErr v).bca = s.bca := rfl
@[simp] theorem State.setErr_ta (s : State) (v : Byte) : (s.setErr v).ta = s.ta := rfl
@[simp] theorem State.setErr_inputs (s : State) (v : Byte) : (s.setErr v).inputs = s.inputs := rfl
@[simp] theorem State.setErr_trace (s : State) (v : Byte) : (s.setErr v).trace = s.trace := rfl
@[simp] theorem State.setErr_draws (s : State) (v : Byte) : (s.setErr v).draws = s.draws := rfl

@[simp] theorem State.setPower_fcu (s : State) (p : Power) : (s.setPower p).fcu = { s.fcu with power := p } := rfl
@[simp] theorem State.setPower_bca (s : State) (p : Power) : (s.setPower p).bca = s.bca := rfl
@[simp] theorem State.setPower_ta (s : State) (p : Power) : (s.setPower p).ta = s.ta := rfl
@[simp] theorem State.setPower_inputs (s : State) (p : Power) : (s.setPower p).inputs = s.inputs := rfl
@[simp] theorem State.setPower_trace (s : State) (p : Power) : (s.setPower p).trace = s.trace := rfl
@[simp] theorem State.setPower_draws (s : State) (p : Power) : (s.setPower p).draws = s.draws := rfl

@[simp] theorem State.setRssi_fcu (s : State) (v : Byte) : (s.setRssi v).fcu = { s.fcu with rssi := .known v } := rfl
@[simp] theorem State.setRssi_bca (s : State) (v : Byte) : (s.setRssi v).bca = s.bca := rfl
@[simp] theorem State.setRssi_ta (s : State) (v : Byte) : (s.setRssi v).ta = s.ta := rfl
@[simp] theorem State.setRssi_inputs (s : State) (v : Byte) : (s.setRssi v).inputs = s.inputs := rfl
@[simp] theorem State.setRssi_trace (s : State) (v : Byte) : (s.setRssi v).trace = s.trace := rfl
@[simp] theorem State.setRssi_draws (s : State) (v : Byte) : (s.setRssi v).draws = s.draws := rfl

@[simp] theorem State.setTa_fcu (s : State) (ta : Ta) : (s.setTa ta).fcu = s.fcu := rfl
@[simp] theorem State.setTa_bca (s : State) (ta : Ta) : (s.setTa ta).bca = s.bca := rfl
@[simp] theorem State.setTa_ta (s : State) (ta : Ta) : (s.setTa ta).ta = ta := rfl
@[simp] theorem State.setTa_inputs (s : State) (ta : Ta) : (s.setTa ta).inputs = s.inputs := rfl
@[simp] theorem State.setTa_trace (s : State) (ta : Ta) : (s.setTa ta).trace = s.trace := rfl
@[simp] theorem State.setTa_draws (s : State) (ta : Ta) : (s.setTa ta).draws = s.draws := rfl

@[simp] theorem State.setBca_fcu (s : State) (b : Bca) : (s.setBca b).fcu = s.fcu := rfl
@[simp] theorem State.setBca_bca (s : State) (b : Bca) : (s.setBca b).bca = b := rfl
@[simp] theorem State.setBca_ta (s : State) (b : Bca) : (s.setBca b).ta = s.ta := rfl
@[simp] theorem State.setBca_inputs (s : State) (b : Bca) : (s.setBca b).inputs = s.inputs := rfl
@[simp] theorem State.setBca_trace (s : State) (b : Bca) : (s.setBca b).trace = s.trace := rfl
@[simp] theorem State.setBca_draws (s : State) (b : Bca) : (s.setBca b).draws = s.draws := rfl

@[simp] theorem State.endDecode_fcu (s : State) : s.endDecode.fcu = s.fcu := rfl
@[simp] theorem State.endDecode_bca (s : State) : s.endDecode.bca = { s.bca with fresh := false } := rfl
@[simp] theorem State.endDecode_ta (s : State) : s.endDecode.ta = s.ta := rfl
@[simp] theorem State.endDecode_inputs (s : State) : s.endDecode.inputs = s.inputs := rfl
@[simp] theorem State.endDecode_trace (s : State) : s.endDecode.trace = s.trace := rfl
@[simp] theorem State.endDecode_draws (s : State) : s.endDecode.draws = s.draws := rfl

@[simp] theorem State.setSpace_fcu (s : State) (sp : Space) (m : Memory) : (s.setSpace sp m).fcu = s.fcu.setSpace sp m := rfl
@[simp] theorem State.setSpace_bca (s : State) (sp : Space) (m : Memory) : (s.setSpace sp m).bca = if sp = .frm then { s.bca with fresh := false } else s.bca := rfl
@[simp] theorem State.setSpace_ta (s : State) (sp : Space) (m : Memory) : (s.setSpace sp m).ta = s.ta := rfl
@[simp] theorem State.setSpace_inputs (s : State) (sp : Space) (m : Memory) : (s.setSpace sp m).inputs = s.inputs := rfl
@[simp] theorem State.setSpace_trace (s : State) (sp : Space) (m : Memory) : (s.setSpace sp m).trace = s.trace := rfl
@[simp] theorem State.setSpace_draws (s : State) (sp : Space) (m : Memory) : (s.setSpace sp m).draws = s.draws := rfl

@[simp] theorem State.drawn_fcu (s : State) : (s.drawn).fcu = s.fcu := rfl
@[simp] theorem State.drawn_bca (s : State) : (s.drawn).bca = s.bca := rfl
@[simp] theorem State.drawn_ta (s : State) : (s.drawn).ta = s.ta := rfl
@[simp] theorem State.drawn_inputs (s : State) : (s.drawn).inputs = s.inputs := rfl
@[simp] theorem State.drawn_trace (s : State) : (s.drawn).trace = s.trace := rfl
@[simp] theorem State.drawn_draws (s : State) : (s.drawn).draws = s.draws + 1 := rfl

@[simp] theorem Fcu.setSpace_power (f : Fcu) (sp : Space) (m : Memory) : (f.setSpace sp m).power = f.power := by
  cases sp <;> rfl
@[simp] theorem Fcu.setSpace_rssi (f : Fcu) (sp : Space) (m : Memory) : (f.setSpace sp m).rssi = f.rssi := by
  cases sp <;> rfl
@[simp] theorem Fcu.setSpace_res (f : Fcu) (sp : Space) (m : Memory) : (f.setSpace sp m).res = f.res := by
  cases sp <;> rfl
@[simp] theorem Fcu.setSpace_err (f : Fcu) (sp : Space) (m : Memory) : (f.setSpace sp m).err = f.err := by
  cases sp <;> rfl
@[simp] theorem Fcu.setSpace_phase (f : Fcu) (sp : Space) (m : Memory) : (f.setSpace sp m).phase = f.phase := by
  cases sp <;> rfl
@[simp] theorem Fcu.setSpace_msg_msg (f : Fcu) (m : Memory) : (f.setSpace .msg m).msg = m := rfl
@[simp] theorem Fcu.setSpace_msg_pad (f : Fcu) (m : Memory) : (f.setSpace .msg m).pad = f.pad := rfl
@[simp] theorem Fcu.setSpace_msg_frm (f : Fcu) (m : Memory) : (f.setSpace .msg m).frm = f.frm := rfl
@[simp] theorem Fcu.setSpace_msg_out (f : Fcu) (m : Memory) : (f.setSpace .msg m).out = f.out := rfl
@[simp] theorem Fcu.setSpace_pad_msg (f : Fcu) (m : Memory) : (f.setSpace .pad m).msg = f.msg := rfl
@[simp] theorem Fcu.setSpace_pad_pad (f : Fcu) (m : Memory) : (f.setSpace .pad m).pad = m := rfl
@[simp] theorem Fcu.setSpace_pad_frm (f : Fcu) (m : Memory) : (f.setSpace .pad m).frm = f.frm := rfl
@[simp] theorem Fcu.setSpace_pad_out (f : Fcu) (m : Memory) : (f.setSpace .pad m).out = f.out := rfl
@[simp] theorem Fcu.setSpace_frm_msg (f : Fcu) (m : Memory) : (f.setSpace .frm m).msg = f.msg := rfl
@[simp] theorem Fcu.setSpace_frm_pad (f : Fcu) (m : Memory) : (f.setSpace .frm m).pad = f.pad := rfl
@[simp] theorem Fcu.setSpace_frm_frm (f : Fcu) (m : Memory) : (f.setSpace .frm m).frm = m := rfl
@[simp] theorem Fcu.setSpace_frm_out (f : Fcu) (m : Memory) : (f.setSpace .frm m).out = f.out := rfl
@[simp] theorem Fcu.setSpace_out_msg (f : Fcu) (m : Memory) : (f.setSpace .out m).msg = f.msg := rfl
@[simp] theorem Fcu.setSpace_out_pad (f : Fcu) (m : Memory) : (f.setSpace .out m).pad = f.pad := rfl
@[simp] theorem Fcu.setSpace_out_frm (f : Fcu) (m : Memory) : (f.setSpace .out m).frm = f.frm := rfl
@[simp] theorem Fcu.setSpace_out_out (f : Fcu) (m : Memory) : (f.setSpace .out m).out = m := rfl

/-- Reading a space after replacing one. -/
theorem Fcu.space_setSpace (f : Fcu) (sp sp' : Space) (m : Memory) :
    (f.setSpace sp m).space sp' = if sp = sp' then m else f.space sp' := by
  cases sp <;> cases sp' <;> rfl

end Sys2Proof.Machine
end

