-- ==== Sys2Proof/Laws/Ops.lean ====
section
/-! SUPPORT. One lemma per shared operation and per adapter primitive: everything it can do. -/

namespace Sys2Proof.Machine

/-! Issuing, completing, reporting. -/

/-- A command issued while idle runs. -/
theorem whenIdle_idle {s : State} (h : s.fcu.phase = .idle) (k : State → State) : whenIdle s k = .next (k s) := by
  simp [whenIdle, h]

/-- A command issued while not idle is refused. -/
theorem whenIdle_running {s : State} (h : s.fcu.phase ≠ .idle) (k : State → State) :
    whenIdle s k = .refused .commandWhileRunning := by
  simp [whenIdle, h]

/-- A command answers a next state exactly when it is issued while idle. -/
theorem whenIdle_next {s t : State} {k : State → State} :
    whenIdle s k = .next t ↔ s.fcu.phase = .idle ∧ t = k s := by
  by_cases h : s.fcu.phase = .idle <;> simp [whenIdle, h, eq_comm]

/-- A command never faults. -/
theorem whenIdle_fault (s : State) (k : State → State) (r : Fault) : whenIdle s k ≠ .fault r := by
  by_cases h : s.fcu.phase = .idle <;> simp [whenIdle, h]

/-- The end of a command. -/
theorem finish_eq (res : Byte) (e : ErrorCode) (s : State) :
    finish res e s =
      { s with
        fcu := { s.fcu with res := res, err := e.code, phase := .idle }
        trace := s.trace ++ [.phase .idle] } := rfl

/-- The issue of a command. -/
theorem issue_eq (s : State) :
    issue s = { s with fcu := { s.fcu with phase := .busy }, trace := s.trace ++ [.phase .busy] } := rfl

/-- The end of a decode's freshness. -/
theorem endDecode_eq (s : State) : s.endDecode = { s with bca := { s.bca with fresh := false } } := rfl

/-! Draws and reads. -/

@[simp] theorem length_anyBytes (c : Config) (d n : Nat) : (c.anyBytes d n).length = n := by
  simp [Config.anyBytes]

@[simp] theorem length_encode (c : Config) (x : List Byte) : (c.encode x).length = c.frameSize := by
  simp [Config.encode]

@[simp] theorem length_decodeBuffer (c : Config) (x : List Byte) : (c.decodeBuffer x).length = c.frameSize := by
  simp [Config.decodeBuffer]

@[simp] theorem length_correctBuffer (c : Config) (x : List Byte) : (c.correctBuffer x).length = c.frameSize := by
  simp [Config.correctBuffer]

@[simp] theorem length_bytesAt (c : Config) (m : Memory) (d i n : Nat) : (bytesAt c m d i n).length = n := by
  simp [bytesAt]

@[simp] theorem length_fetched (c : Config) (d : Nat) (u : RxUnit) : (fetched c d u).length = c.frameSize := by
  simp [fetched]

/-- A read from index 0 gives every specified byte as it stands. -/
theorem bytesAt_readsAs (c : Config) (m : Memory) (d n : Nat) : Memory.ReadsAs m n (bytesAt c m d 0 n) := by
  refine ⟨by simp, ?_⟩
  intro i b hi hb
  simp [bytesAt, hi, hb]

/-- A read of specified bytes does not depend on the draw. -/
theorem bytesAt_eq_of_holds (c : Config) {m : Memory} (d : Nat) {xs : List Byte} (h : Memory.Holds m xs) :
    bytesAt c m d 0 xs.length = xs :=
  h.readsAs_eq (bytesAt_readsAs c m d xs.length)

/-- A read of fewer bytes than the space holds. -/
theorem bytesAt_take_of_holds (c : Config) {m : Memory} (d n : Nat) {xs : List Byte} (h : Memory.Holds m xs)
    (hn : n ≤ xs.length) : bytesAt c m d 0 n = xs.take n := by
  apply List.ext_getElem
  · simp [hn]
  · intro i h1 h2
    have h1' : i < n := by simpa using h1
    simp [bytesAt, h i (by omega)]

/-- A filled space reads the same whatever the draw. -/
theorem bytesAt_eq_of_filled (c : Config) {m : Memory} (d d' n : Nat) (h : Memory.Filled m n) :
    bytesAt c m d 0 n = bytesAt c m d' 0 n := by
  apply List.ext_getElem (by simp)
  intro i h1 h2
  have hi : i < n := by simpa using h1
  obtain ⟨b, hb⟩ := Option.ne_none_iff_exists'.mp (h i hi)
  simp [bytesAt, hb]

/-- The truth value read: the known one, else the draw number `d`. -/
def boolOf (c : Config) (v : Val Bool) (d : Nat) : Bool :=
  match v with
  | .known b => b
  | .unknown => c.anyBool d

/-- The byte read: the known one, else the draw number `d`. -/
def byteOf (c : Config) (v : Val Byte) (d : Nat) : Byte :=
  match v with
  | .known b => b
  | .unknown => c.anyByte d 0

/-- The draw counter after a read. -/
def drawsAfter {α : Type} (v : Val α) (d : Nat) : Nat :=
  match v with
  | .known _ => d
  | .unknown => d + 1

@[simp] theorem boolOf_known (c : Config) (b : Bool) (d : Nat) : boolOf c (.known b) d = b := rfl
@[simp] theorem byteOf_known (c : Config) (b : Byte) (d : Nat) : byteOf c (.known b) d = b := rfl
@[simp] theorem drawsAfter_known {α : Type} (a : α) (d : Nat) : drawsAfter (.known a) d = d := rfl

/-- Everything reading a truth value does. -/
theorem readBool_eq (c : Config) (v : Val Bool) (s : State) :
    s.readBool c v = (boolOf c v s.draws, { s with draws := drawsAfter v s.draws }) := by
  cases v <;> rfl

/-- Everything reading a byte does. -/
theorem readByte_eq (c : Config) (v : Val Byte) (s : State) :
    s.readByte c v = (byteOf c v s.draws, { s with draws := drawsAfter v s.draws }) := by
  cases v <;> rfl

/-! Memory. -/

/-- Everything `memWrite` does. -/
theorem memWrite_eq (sp : Space) (v : List Byte) (s : State) :
    memWrite sp 0 v s =
      { s with
        fcu := s.fcu.setSpace sp (Memory.pokeAll (s.fcu.space sp) 0 v)
        bca := if sp = .frm then { s.bca with fresh := false } else s.bca } := rfl

/-- A write inside its space keeps all four spaces canonical and inside their sizes. -/
theorem memWrite_memoryInv {c : Config} {sp : Space} {i : Nat} {v : List Byte} {s : State} (h : s.MemoryInv c)
    (hn : i + v.length ≤ sp.size c) : (memWrite sp i v s).MemoryInv c := by
  intro sp'
  simp only [memWrite, State.setSpace_fcu, Fcu.space_setSpace]
  split_ifs with e
  · subst e
    exact ⟨Memory.wf_pokeAll _ _ (h sp).1, Memory.below_pokeAll _ _ _ (h sp).2 hn⟩
  · exact h sp'

/-! Adapters: what each primitive leaves. -/

/-- `BCA.encode` into `FRM`. -/
theorem bcaEncode_eq (c : Config) (s : State) :
    bcaEncode c s =
      { s with
        fcu := { s.fcu with
          frm := Memory.pokeAll s.fcu.frm 0 (c.encode (bytesAt c s.fcu.pad s.draws 0 c.maxPayload)) }
        bca := { s.bca with fresh := false }
        trace := s.trace ++ [.bcaEncode (bytesAt c s.fcu.pad s.draws 0 c.maxPayload)]
        draws := s.draws + 1 } := rfl

/-- `BCA.decode` of `FRM`. -/
theorem bcaDecode_eq (c : Config) (s : State) :
    bcaDecode c s =
      { s with
        fcu := { s.fcu with
          frm := Memory.pokeAll s.fcu.frm 0 (c.decodeBuffer (bytesAt c s.fcu.frm s.draws 0 c.frameSize)) }
        bca := { syn := .known (c.syn (bytesAt c s.fcu.frm s.draws 0 c.frameSize)), fresh := true }
        trace := s.trace ++ [.bcaDecode c.frameSize]
        draws := s.draws + 1 } := rfl

/-- `BCA.correct` after a decode of the same content. -/
theorem bcaCorrect_fresh (c : Config) {s : State} (h : s.bca.fresh = true) :
    bcaCorrect c s =
      (c.corOk (bytesAt c s.fcu.frm s.draws 0 c.frameSize),
        { s with
          fcu := { s.fcu with
            frm := Memory.pokeAll s.fcu.frm 0
              (if c.corOk (bytesAt c s.fcu.frm s.draws 0 c.frameSize) = true then
                c.correctBuffer (bytesAt c s.fcu.frm s.draws 0 c.frameSize)
              else c.anyBytes (s.draws + 2) c.frameSize) }
          bca := { s.bca with fresh := false }
          trace := s.trace ++ [.bcaCorrect c.frameSize 0]
          draws := s.draws + 3 }) := by
  simp only [bcaCorrect, memRead, State.drawBool, State.drawBytes, State.emit_bca, h, if_true, true_and,
    State.emit_fcu, State.emit_draws, State.drawn_draws]
  rfl

/-- What `BCA.correct` can do in any state: an answer, and `FRAME_SIZE` bytes written. -/
theorem bcaCorrect_spec (c : Config) (s : State) :
    ∃ ok w, w.length = c.frameSize ∧
      bcaCorrect c s =
        (ok, { s with
          fcu := { s.fcu with frm := Memory.pokeAll s.fcu.frm 0 w }
          bca := { s.bca with fresh := false }
          trace := s.trace ++ [.bcaCorrect c.frameSize 0]
          draws := s.draws + 3 }) := by
  refine ⟨(bcaCorrect c s).1,
    if s.bca.fresh ∧ (bcaCorrect c s).1 = true then c.correctBuffer (bytesAt c s.fcu.frm s.draws 0 c.frameSize)
    else c.anyBytes (s.draws + 2) c.frameSize, ?_, rfl⟩
  split_ifs <;> simp

/-- `TA.receive` where AIR has made nothing pending. -/
theorem taReceive_none (c : Config) {s : State} (h : s.ta.pending = .known none) :
    taReceive c s = (none, { s with ta := { s.ta with pending := .unknown }, trace := s.trace ++ [.taReceive] }) := by
  simp only [taReceive, State.emit_ta, h]
  rfl

/-- `TA.receive` of a unit AIR has made pending. -/
theorem taReceive_some (c : Config) {s : State} {u : RxUnit} (h : s.ta.pending = .known (some u)) :
    taReceive c s =
      (some u.size,
        { s with
          fcu := { s.fcu with frm := Memory.pokeAll s.fcu.frm 0 (fetched c s.draws u) }
          bca := { s.bca with fresh := false }
          ta := { s.ta with pending := .unknown, lastRssi := .known u.rssi }
          trace := s.trace ++ [.taReceive]
          draws := s.draws + 1 }) := by
  simp only [taReceive, State.emit_ta, h]
  rfl

/-- `TA.receive` where AIR has not decided and the draw says that nothing is there. -/
theorem taReceive_unknown_none (c : Config) {s : State} (h : s.ta.pending = .unknown)
    (hb : c.anyBool s.draws = false) :
    taReceive c s = (none, { s with trace := s.trace ++ [.taReceive], draws := s.draws + 2 }) := by
  simp only [taReceive, State.emit_ta, h, State.drawBool, State.emit_draws, hb]
  rfl

/-- `TA.receive` where AIR has not decided and the draw says that a frame is there: its size and bytes are draws. -/
theorem taReceive_unknown_some (c : Config) {s : State} (h : s.ta.pending = .unknown)
    (hb : c.anyBool s.draws = true) :
    taReceive c s =
      (some (c.anyByte (s.draws + 1) 0),
        { s with
          fcu := { s.fcu with frm := Memory.pokeAll s.fcu.frm 0 (c.anyBytes (s.draws + 2) c.frameSize) }
          bca := { s.bca with fresh := false }
          ta := { s.ta with pending := .unknown, lastRssi := .unknown }
          trace := s.trace ++ [.taReceive]
          draws := s.draws + 3 }) := by
  simp only [taReceive, State.emit_ta, h, State.drawBool, State.emit_draws, hb, if_true]
  rfl

/-- What `TA.receive` can do in any state: nothing but its own answer, or a frame in `FRM`. -/
theorem taReceive_spec (c : Config) (s : State) :
    (∃ ta d, taReceive c s = (none, { s with ta := ta, trace := s.trace ++ [.taReceive], draws := d })) ∨
    (∃ n w ta d, w.length = c.frameSize ∧
      taReceive c s =
        (some n,
          { s with
            fcu := { s.fcu with frm := Memory.pokeAll s.fcu.frm 0 w }
            bca := { s.bca with fresh := false }
            ta := ta
            trace := s.trace ++ [.taReceive]
            draws := d })) := by
  cases h : s.ta.pending with
  | known p =>
    cases p with
    | none => exact .inl ⟨_, s.draws, taReceive_none c h⟩
    | some u => exact .inr ⟨_, _, _, _, by simp, taReceive_some c h⟩
  | unknown =>
    cases hb : c.anyBool s.draws with
    | true => exact .inr ⟨_, _, _, _, by simp, taReceive_unknown_some c h hb⟩
    | false => exact .inl ⟨s.ta, _, taReceive_unknown_none c h hb⟩

/-- `TA.send` of `FRM`. -/
theorem taSend_eq (c : Config) (s : State) :
    taSend c s =
      { s with
        ta := { s.ta with pending := .unknown }
        trace := s.trace ++ [.taSend (bytesAt c s.fcu.frm s.draws 0 c.frameSize) c.frameSize]
        draws := s.draws + 1 } := rfl

/-- `TA.waitSendComplete`: the TA's answer where it is known, a draw otherwise. -/
theorem taWaitSendComplete_eq (c : Config) (s : State) :
    taWaitSendComplete c s =
      (boolOf c s.ta.confirmAnswer s.draws,
        { s with
          ta := { s.ta with confirmAnswer := .unknown }
          trace := s.trace ++ [.taWaitSendComplete]
          draws := drawsAfter s.ta.confirmAnswer s.draws }) := by
  simp only [taWaitSendComplete, readBool_eq]
  rfl

/-- `TA.lastSignalStrength`: the TA's own record where it is known, a draw otherwise. -/
theorem taLastSignalStrength_eq (c : Config) (s : State) :
    taLastSignalStrength c s =
      (byteOf c s.ta.lastRssi s.draws,
        { s with trace := s.trace ++ [.taLastSignalStrength], draws := drawsAfter s.ta.lastRssi s.draws }) := by
  simp only [taLastSignalStrength, readByte_eq]
  rfl

/-- `TA.initialize`: the TA's answer where it is known, a draw otherwise. -/
theorem taInit_eq (c : Config) (n : Nat) (s : State) :
    taInit c n s =
      (boolOf c s.ta.probeAnswer s.draws,
        { s with
          ta := { s.ta with
            frameSize := if boolOf c s.ta.probeAnswer s.draws then .known n else .unknown
            pending := .unknown
            probeAnswer := .unknown }
          trace := s.trace ++ [.taInitialize n]
          draws := drawsAfter s.ta.probeAnswer s.draws }) := by
  simp only [taInit, readBool_eq]
  rfl

/-- `TA.setFrequency`: the TA's answer where it is known, a draw otherwise. -/
theorem taSetFrequency_eq (c : Config) (n : Nat) (s : State) :
    taSetFrequency c n s =
      (boolOf c s.ta.frequencyAnswer s.draws,
        { s with
          ta := { s.ta with
            frequency := if boolOf c s.ta.frequencyAnswer s.draws then .known n else .unknown
            frequencyAnswer := .unknown }
          trace := s.trace ++ [.taSetFrequency n]
          draws := drawsAfter s.ta.frequencyAnswer s.draws }) := by
  simp only [taSetFrequency, readBool_eq]
  rfl

/-- `BCA.syndromeNonZero` right after a decode answers the decode's syndrome. -/
theorem bcaSyndromeNonZero_known (c : Config) {s : State} {b : Bool} (h : s.bca.syn = .known b) :
    bcaSyndromeNonZero c s = (b, { s with trace := s.trace ++ [.bcaSyndromeNonZero] }) := by
  simp only [bcaSyndromeNonZero, h]
  rfl

/-! The two buffer operations of the Frame Codec. -/

/-- The pad. -/
theorem padBuffer_eq (c : Config) (len : Nat) (s : State) :
    padBuffer c len s =
      { s with
        fcu := { s.fcu with
          pad := Memory.pokeAll s.fcu.pad 0
            (bytesAt c s.fcu.msg s.draws 0 len ++ List.replicate (c.maxPayload - len) 0x00#8) }
        draws := s.draws + 1 } := rfl

/-- The extraction. -/
theorem extractBuffer_eq (c : Config) (s : State) :
    extractBuffer c s =
      { s with
        fcu := { s.fcu with out := Memory.pokeAll s.fcu.out 0 (bytesAt c s.fcu.frm s.draws 0 c.maxPayload) }
        draws := s.draws + 1 } := rfl

end Sys2Proof.Machine
end

