-- ==== Sys2Proof/Laws/Exec.lean ====
section
/-! SUPPORT. What a command can answer, and each command's effect as one equation over the spec lemmas of Laws/Ops. -/

namespace Sys2Proof.Machine

/-- Every command is one effect, run only while `PHASE = Idle` (R256). -/
theorem exec_eq_whenIdle (i : Instr) : ∃ k : State → State, ∀ s, exec i s = whenIdle s k := by
  cases i <;> exact ⟨_, fun _ => rfl⟩

/-- A command issued while `PHASE` is not `Idle` is refused. -/
theorem exec_running (i : Instr) {s : State} (h : s.fcu.phase ≠ .idle) :
    exec i s = .refused .commandWhileRunning := by
  obtain ⟨k, hk⟩ := exec_eq_whenIdle i
  rw [hk, whenIdle_running h]

/-- A command that answers a next state was issued while idle. -/
theorem idle_of_exec_next {i : Instr} {s t : State} (h : exec i s = .next t) : s.fcu.phase = .idle := by
  by_contra hn
  rw [exec_running i hn] at h
  cases h

/-- PAD of a legal length. -/
theorem execPadIn_legal (c : Config) {len : Nat} {s : State} (hi : s.fcu.phase = .idle) (h : len ≤ c.maxPayload) :
    execPadIn c len s = .next
      { s with
        fcu := { s.fcu with
          phase := .idle
          res := 0x00#8
          err := 0x00#8
          pad := Memory.pokeAll s.fcu.pad 0
            (bytesAt c s.fcu.msg s.draws 0 len ++ List.replicate (c.maxPayload - len) 0x00#8) }
        trace := s.trace ++ [.phase .busy] ++ [.phase .idle]
        draws := s.draws + 1 } := by
  have hl : payloadTooLarge c len = false := by simp [payloadTooLarge, h]
  rw [execPadIn, whenIdle_idle hi, hl]
  rfl

/-- PAD of an oversize length. -/
theorem execPadIn_oversize (c : Config) {len : Nat} {s : State} (hi : s.fcu.phase = .idle) (h : c.maxPayload < len) :
    execPadIn c len s = .next
      { s with
        fcu := { s.fcu with phase := .idle, res := 0x00#8, err := 0x01#8 }
        trace := s.trace ++ [.phase .busy] ++ [.phase .idle] } := by
  have hl : payloadTooLarge c len = true := by simp [payloadTooLarge, h]
  rw [execPadIn, whenIdle_idle hi, hl]
  rfl

/-- TRANSMIT of an oversize length. -/
theorem execTransmitIn_oversize (c : Config) {len : Nat} {s : State} (hi : s.fcu.phase = .idle)
    (h : c.maxPayload < len) :
    execTransmitIn c len s = .next
      { s with
        fcu := { s.fcu with phase := .idle, res := 0x00#8, err := 0x01#8 }
        trace := s.trace ++ [.phase .busy] ++ [.phase .idle] } := by
  have hl : payloadTooLarge c len = true := by simp [payloadTooLarge, h]
  rw [execTransmitIn, whenIdle_idle hi, hl]
  rfl

/-- The padded payload of a TRANSMIT or PAD of `len` bytes. -/
def paddedPayload (c : Config) (len : Nat) (s : State) : List Byte :=
  bytesAt c s.fcu.msg s.draws 0 len ++ List.replicate (c.maxPayload - len) 0x00#8

/-- A padded payload has `MAX_PAYLOAD` bytes. -/
theorem length_paddedPayload (c : Config) {len : Nat} (s : State) (h : len ≤ c.maxPayload) :
    (paddedPayload c len s).length = c.maxPayload := by
  simp [paddedPayload]; omega

/-- Whether the TA confirms the send of a TRANSMIT issued in this state: three draws come before. -/
def transmitConfirmed (c : Config) (s : State) : Bool := boolOf c s.ta.confirmAnswer (s.draws + 3)

/-- TRANSMIT of a legal length: everything it does, by whether the TA confirms. -/
theorem execTransmitIn_legal (c : Config) {len : Nat} {s : State} (hi : s.fcu.phase = .idle)
    (h : len ≤ c.maxPayload) :
    execTransmitIn c len s = .next
      { s with
        fcu := { s.fcu with
          pad := Memory.pokeAll s.fcu.pad 0 (paddedPayload c len s)
          frm := Memory.pokeAll s.fcu.frm 0 (c.encode (paddedPayload c len s))
          phase := if transmitConfirmed c s then .idle else .busy
          res := if transmitConfirmed c s then 0x00#8 else s.fcu.res
          err := if transmitConfirmed c s then 0x00#8 else s.fcu.err }
        bca := { s.bca with fresh := false }
        ta := { s.ta with pending := .unknown, confirmAnswer := .unknown }
        trace := s.trace ++ ([.phase .busy, .bcaEncode (paddedPayload c len s),
          .taSend (c.encode (paddedPayload c len s)) c.frameSize, .taWaitSendComplete] ++
            if transmitConfirmed c s then [.phase .idle] else [])
        draws := drawsAfter s.ta.confirmAnswer (s.draws + 3) } := by
  have hl : payloadTooLarge c len = false := by simp [payloadTooLarge, h]
  have hp : Memory.Holds (padBuffer c len (issue s)).fcu.pad (paddedPayload c len s) := by
    rw [padBuffer_eq]; exact Memory.holds_pokeAll _ _
  have hx : bytesAt c (padBuffer c len (issue s)).fcu.pad (padBuffer c len (issue s)).draws 0 c.maxPayload =
      paddedPayload c len s := by
    have := bytesAt_eq_of_holds c (padBuffer c len (issue s)).draws hp
    rwa [length_paddedPayload c s h] at this
  have hf : ∀ d, bytesAt c (Memory.pokeAll s.fcu.frm 0 (c.encode (paddedPayload c len s))) d 0 c.frameSize =
      c.encode (paddedPayload c len s) := by
    intro d
    have := bytesAt_eq_of_holds c d (Memory.holds_pokeAll s.fcu.frm (c.encode (paddedPayload c len s)))
    rwa [length_encode] at this
  have he := bcaEncode_eq c (padBuffer c len (issue s))
  rw [hx] at he
  rw [execTransmitIn, whenIdle_idle hi, hl]
  simp only [Bool.false_eq_true, if_false, sendAndWait, taWaitSendComplete_eq, taSend_eq, he]
  simp only [padBuffer_eq, issue_eq, hf]
  cases hok : transmitConfirmed c s <;> simp only [transmitConfirmed] at hok <;>
    simp [hok, finish_eq, ErrorCode.code, paddedPayload]

/-- ENCODE_FRAME. -/
theorem execEncodeFrameIn_eq (c : Config) {s : State} (hi : s.fcu.phase = .idle) :
    execEncodeFrameIn c s = .next
      { s with
        fcu := { s.fcu with
          phase := .idle
          res := 0x00#8
          err := 0x00#8
          frm := Memory.pokeAll s.fcu.frm 0 (c.encode (bytesAt c s.fcu.pad s.draws 0 c.maxPayload)) }
        bca := { s.bca with fresh := false }
        trace := s.trace ++ [.phase .busy] ++ [.bcaEncode (bytesAt c s.fcu.pad s.draws 0 c.maxPayload)] ++
          [.phase .idle]
        draws := s.draws + 1 } := by
  rw [execEncodeFrameIn, whenIdle_idle hi]
  rfl

/-- DECODE_FRAME. -/
theorem execDecodeFrameIn_eq (c : Config) {s : State} (hi : s.fcu.phase = .idle) :
    execDecodeFrameIn c s = .next
      { s with
        fcu := { s.fcu with
          phase := .idle
          res := flagByte (c.syn (bytesAt c s.fcu.frm s.draws 0 c.frameSize))
          err := 0x00#8
          frm := Memory.pokeAll s.fcu.frm 0 (c.decodeBuffer (bytesAt c s.fcu.frm s.draws 0 c.frameSize)) }
        bca := { syn := .known (c.syn (bytesAt c s.fcu.frm s.draws 0 c.frameSize)), fresh := true }
        trace := s.trace ++ [.phase .busy] ++ [.bcaDecode c.frameSize] ++ [.bcaSyndromeNonZero] ++ [.phase .idle]
        draws := s.draws + 1 } := by
  rw [execDecodeFrameIn, whenIdle_idle hi]
  rfl

/-- CORRECT after a decode of the same content. -/
theorem execCorrectIn_fresh (c : Config) {s : State} (hi : s.fcu.phase = .idle) (h : s.bca.fresh = true) :
    execCorrectIn c s = .next
      { s with
        fcu := { s.fcu with
          phase := .idle
          res := flagByte (c.corOk (bytesAt c s.fcu.frm s.draws 0 c.frameSize))
          err := 0x00#8
          frm := Memory.pokeAll s.fcu.frm 0
            (if c.corOk (bytesAt c s.fcu.frm s.draws 0 c.frameSize) = true then
              c.correctBuffer (bytesAt c s.fcu.frm s.draws 0 c.frameSize)
            else c.anyBytes (s.draws + 2) c.frameSize) }
        bca := { s.bca with fresh := false }
        trace := s.trace ++ [.phase .busy] ++ [.bcaCorrect c.frameSize 0] ++ [.phase .idle]
        draws := s.draws + 3 } := by
  have h' : (issue s).bca.fresh = true := h
  rw [execCorrectIn, whenIdle_idle hi, bcaCorrect_fresh c h']
  rfl

/-- CORRECT in any state. -/
theorem execCorrectIn_spec (c : Config) {s : State} (hi : s.fcu.phase = .idle) :
    ∃ ok w, w.length = c.frameSize ∧
      execCorrectIn c s = .next
        { s with
          fcu := { s.fcu with
            phase := .idle
            res := flagByte ok
            err := 0x00#8
            frm := Memory.pokeAll s.fcu.frm 0 w }
          bca := { s.bca with fresh := false }
          trace := s.trace ++ [.phase .busy] ++ [.bcaCorrect c.frameSize 0] ++ [.phase .idle]
          draws := s.draws + 3 } := by
  obtain ⟨ok, w, hw, e⟩ := bcaCorrect_spec c (issue s)
  refine ⟨ok, w, hw, ?_⟩
  rw [execCorrectIn, whenIdle_idle hi, e]
  rfl

/-- EXTRACT_PAYLOAD. -/
theorem execExtractPayloadIn_eq (c : Config) {s : State} (hi : s.fcu.phase = .idle) :
    execExtractPayloadIn c s = .next
      { s with
        fcu := { s.fcu with
          phase := .idle
          res := 0x00#8
          err := 0x00#8
          out := Memory.pokeAll s.fcu.out 0 (bytesAt c s.fcu.frm s.draws 0 c.maxPayload) }
        trace := s.trace ++ [.phase .busy] ++ [.phase .idle]
        draws := s.draws + 1 } := by
  rw [execExtractPayloadIn, whenIdle_idle hi]
  rfl

/-- RADIO_ON. -/
theorem execRadioOnIn_eq (c : Config) {s : State} (hi : s.fcu.phase = .idle) :
    execRadioOnIn c s = .next
      { s with
        fcu := { s.fcu with phase := .idle, power := .on, res := 0x00#8, err := 0x00#8 }
        ta := { s.ta with line := .on, pending := .unknown }
        trace := s.trace ++ [.phase .busy] ++ [.taPowerOn] ++ [.phase .idle] } := by
  rw [execRadioOnIn, whenIdle_idle hi]
  rfl

/-- RADIO_OFF. -/
theorem execRadioOffIn_eq (c : Config) {s : State} (hi : s.fcu.phase = .idle) :
    execRadioOffIn c s = .next
      { s with
        fcu := { s.fcu with phase := .idle, power := .off, res := 0x00#8, err := 0x00#8 }
        ta := { s.ta with
          line := .off
          pending := .unknown
          frameSize := .unknown
          frequency := .unknown
          modemProfile := .unknown
          transmitPower := .unknown }
        trace := s.trace ++ [.phase .busy] ++ [.taPowerOff] ++ [.phase .idle] } := by
  rw [execRadioOffIn, whenIdle_idle hi]
  rfl

/-- GET_RSSI. -/
theorem execGetRssiIn_eq (c : Config) {s : State} (hi : s.fcu.phase = .idle) :
    execGetRssiIn c s = .next
      { s with
        fcu := { s.fcu with phase := .idle, res := byteOf c s.fcu.rssi s.draws, err := 0x00#8 }
        trace := s.trace ++ [.phase .busy] ++ [.phase .idle]
        draws := drawsAfter s.fcu.rssi s.draws } := by
  rw [execGetRssiIn, whenIdle_idle hi]
  simp only [readByte_eq]
  rfl

/-- What the probe answers in a CONFIGURE issued in this state. -/
def probeOk (c : Config) (s : State) : Bool := boolOf c s.ta.probeAnswer s.draws

/-- What the frequency setting answers in a CONFIGURE issued in this state. -/
def freqOk (c : Config) (s : State) : Bool := boolOf c s.ta.frequencyAnswer (drawsAfter s.ta.probeAnswer s.draws)

/-- CONFIGURE. -/
theorem execConfigureIn_eq (c : Config) {s : State} (hi : s.fcu.phase = .idle) :
    execConfigureIn c s = .next
      { s with
        fcu := { s.fcu with
          phase := .idle
          power := .on
          res := configByte (probeOk c s) (freqOk c s)
          err := (configError (probeOk c s) (freqOk c s)).code }
        ta := { s.ta with
          pending := .unknown
          line := .on
          frameSize := if probeOk c s then .known c.frameSize else .unknown
          frequency := if freqOk c s then .known c.freqMhz else .unknown
          modemProfile := .known c.modemProfile
          transmitPower := .known c.txPowerMax
          probeAnswer := .unknown
          frequencyAnswer := .unknown }
        trace := s.trace ++ [.phase .busy, .platInitBus, .taPowerOff, .platDelay c.settleDelay, .taPowerOn,
          .taInitialize c.frameSize, .taSetFrequency c.freqMhz, .taSetModemProfile c.modemProfile,
          .taSetTransmitPower c.txPowerMax, .phase .idle]
        draws := drawsAfter s.ta.frequencyAnswer (drawsAfter s.ta.probeAnswer s.draws) } := by
  rw [execConfigureIn, whenIdle_idle hi]
  simp only [taInit_eq, taSetFrequency_eq]
  simp [finish_eq, taSetTransmitPower, taSetModemProfile, powerCycle, taPowerOn, taPowerOff, platDelay, platInitBus,
    State.emit, State.setTa, State.setPower, issue_eq, probeOk, freqOk]
  constructor <;> split <;> simp_all

/-- The status byte's seven reachable values (R29). -/
theorem status_mem_seven (c u m : Bool) (h : u = true → c = true) :
    Status.byte ⟨true, c, u, m⟩ ∈ [0x01#8, 0x03#8, 0x07#8, 0x09#8, 0x0B#8, 0x0F#8] := by
  cases c <;> cases u <;> cases m <;> simp_all <;> decide

/-- The four flags of a status that reports a message, each in its own bit (R28). -/
theorem status_bits (c u m : Bool) :
    (Status.byte ⟨true, c, u, m⟩).toNat < 16 ∧ (Status.byte ⟨true, c, u, m⟩).getLsbD 0 = true ∧
      (Status.byte ⟨true, c, u, m⟩).getLsbD 1 = c ∧ (Status.byte ⟨true, c, u, m⟩).getLsbD 2 = u ∧
      (Status.byte ⟨true, c, u, m⟩).getLsbD 3 = m := by
  cases c <;> cases u <;> cases m <;> decide

/-- `FRM` after the decode of what was fetched, and after the correction where there was one. -/
def frmAfter (c : Config) (frm : Memory) (f w : List Byte) : Memory :=
  if c.syn f then Memory.pokeAll (Memory.pokeAll frm 0 (c.decodeBuffer f)) 0 w
  else Memory.pokeAll frm 0 (c.decodeBuffer f)

/-- The bytes of `FRM` that the decode of a receive reads. -/
def receivedBlock (c : Config) (s : State) : List Byte :=
  bytesAt c s.fcu.frm (drawsAfter s.ta.lastRssi s.draws) 0 c.frameSize

/-- What a correction in that receive writes. -/
def receivedRepair (c : Config) (s : State) : List Byte :=
  if c.corOk (c.decodeBuffer (receivedBlock c s)) = true then
    c.correctBuffer (c.decodeBuffer (receivedBlock c s))
  else c.anyBytes (drawsAfter s.ta.lastRssi s.draws + 3) c.frameSize

/-- `FRM` at the end of that receive. -/
def receivedFrm (c : Config) (s : State) : Memory :=
  frmAfter c s.fcu.frm (receivedBlock c s) (receivedRepair c s)

/-- What a correction writes has `FRAME_SIZE` bytes. -/
@[simp] theorem length_receivedRepair (c : Config) (s : State) : (receivedRepair c s).length = c.frameSize := by
  unfold receivedRepair
  split_ifs <;> simp

/-- At the end of a receive every byte of `FRM` is specified. -/
theorem receivedFrm_filled (c : Config) (s : State) : Memory.Filled (receivedFrm c s) c.frameSize := by
  unfold receivedFrm frmAfter
  split_ifs
  · simpa using (Memory.holds_pokeAll (Memory.pokeAll s.fcu.frm 0 _) (receivedRepair c s)).filled
  · simpa using (Memory.holds_pokeAll s.fcu.frm (c.decodeBuffer (receivedBlock c s))).filled

/-- What TRY_RECEIVE does from a fetched frame on. -/
theorem receiveFrame_eq (c : Config) (n : Byte) (s : State) :
    receiveFrame c n s =
      { s with
        fcu := { s.fcu with
          rssi := .known (byteOf c s.ta.lastRssi s.draws)
          phase := .idle
          res := Status.byte
            ⟨true, c.syn (receivedBlock c s), c.syn (receivedBlock c s) &&
              !c.corOk (c.decodeBuffer (receivedBlock c s)), sizeMismatch c.frameSize n⟩
          err := 0x00#8
          frm := receivedFrm c s
          out := Memory.pokeAll s.fcu.out 0
            (bytesAt c (receivedFrm c s)
              (drawsAfter s.ta.lastRssi s.draws + if c.syn (receivedBlock c s) then 4 else 1) 0 c.maxPayload) }
        bca := { syn := .known (c.syn (receivedBlock c s)), fresh := false }
        trace := s.trace ++ ([.taLastSignalStrength, .bcaDecode c.frameSize, .phase .decoded, .bcaSyndromeNonZero] ++
          (if c.syn (receivedBlock c s) then [.phase .correcting, .bcaCorrect c.frameSize 0,
            .phase (if c.corOk (c.decodeBuffer (receivedBlock c s)) then .corrected else .uncorrectable)]
          else [.phase .clean]) ++ [.phase .idle])
        draws := drawsAfter s.ta.lastRssi s.draws + if c.syn (receivedBlock c s) then 5 else 2 } := by
  have hdec : ∀ d', bytesAt c (Memory.pokeAll s.fcu.frm 0 (c.decodeBuffer (receivedBlock c s))) d' 0 c.frameSize =
      c.decodeBuffer (receivedBlock c s) := by
    intro d'
    have := bytesAt_eq_of_holds c d' (Memory.holds_pokeAll s.fcu.frm (c.decodeBuffer (receivedBlock c s)))
    rwa [length_decodeBuffer] at this
  have hf : bytesAt c s.fcu.frm (drawsAfter s.ta.lastRssi s.draws) 0 c.frameSize = receivedBlock c s := rfl
  simp only [receiveFrame, taLastSignalStrength_eq, checkAndCorrect, bcaDecode_eq, State.setRssi, hf]
  rw [bcaSyndromeNonZero_known c (b := c.syn (receivedBlock c s)) rfl]
  by_cases hs : c.syn (receivedBlock c s) = true
  · simp only [hs, if_true]
    rw [bcaCorrect_fresh c (by rfl)]
    simp only [endDecode_eq, extractBuffer_eq, finish_eq, State.setPhase, State.emit, hdec, receivedFrm, frmAfter, hs, if_true]
    simp [ErrorCode.code, receivedRepair]
  · have hs' : c.syn (receivedBlock c s) = false := by simpa using hs
    simp only [hs', Bool.false_eq_true, if_false, endDecode_eq, extractBuffer_eq, finish_eq, State.setPhase, State.emit, receivedFrm,
      frmAfter]
    simp [Status.none, ErrorCode.code]

/-- TRY_RECEIVE where AIR has made nothing pending. -/
theorem execTryReceiveIn_none (c : Config) {s : State} (hi : s.fcu.phase = .idle) (h : s.ta.pending = .known none) :
    execTryReceiveIn c s = .next
      { s with
        fcu := { s.fcu with phase := .idle, res := 0x00#8, err := 0x00#8 }
        ta := { s.ta with pending := .unknown }
        trace := s.trace ++ [.taReceive] ++ [.phase .polled] ++ [.phase .noData] ++ [.phase .idle] } := by
  rw [execTryReceiveIn, whenIdle_idle hi]
  simp only [taReceive_none c h]
  rfl

/-- TRY_RECEIVE of a unit AIR has made pending: the fetch, `PHASE`, the rest. -/
theorem execTryReceiveIn_some (c : Config) {s : State} {u : RxUnit} (hi : s.fcu.phase = .idle)
    (h : s.ta.pending = .known (some u)) :
    execTryReceiveIn c s = .next (receiveFrame c u.size
      { s with
        fcu := { s.fcu with phase := .polled, frm := Memory.pokeAll s.fcu.frm 0 (fetched c s.draws u) }
        bca := { s.bca with fresh := false }
        ta := { s.ta with pending := .unknown, lastRssi := .known u.rssi }
        trace := s.trace ++ [.taReceive] ++ [.phase .polled]
        draws := s.draws + 1 }) := by
  rw [execTryReceiveIn, whenIdle_idle hi]
  simp only [taReceive_some c h]
  rfl

/-- TRY_RECEIVE where AIR has not decided and the draw says that nothing is there. -/
theorem execTryReceiveIn_unknown_none (c : Config) {s : State} (hi : s.fcu.phase = .idle)
    (h : s.ta.pending = .unknown) (hb : c.anyBool s.draws = false) :
    execTryReceiveIn c s = .next
      { s with
        fcu := { s.fcu with phase := .idle, res := 0x00#8, err := 0x00#8 }
        trace := s.trace ++ [.taReceive] ++ [.phase .polled] ++ [.phase .noData] ++ [.phase .idle]
        draws := s.draws + 2 } := by
  rw [execTryReceiveIn, whenIdle_idle hi]
  simp only [taReceive_unknown_none c h hb]
  rfl

/-- TRY_RECEIVE where AIR has not decided and the draw says that a frame is there. -/
theorem execTryReceiveIn_unknown_some (c : Config) {s : State} (hi : s.fcu.phase = .idle)
    (h : s.ta.pending = .unknown) (hb : c.anyBool s.draws = true) :
    execTryReceiveIn c s = .next (receiveFrame c (c.anyByte (s.draws + 1) 0)
      { s with
        fcu := { s.fcu with
          phase := .polled
          frm := Memory.pokeAll s.fcu.frm 0 (c.anyBytes (s.draws + 2) c.frameSize) }
        bca := { s.bca with fresh := false }
        ta := { s.ta with pending := .unknown, lastRssi := .unknown }
        trace := s.trace ++ [.taReceive] ++ [.phase .polled]
        draws := s.draws + 3 }) := by
  rw [execTryReceiveIn, whenIdle_idle hi]
  simp only [taReceive_unknown_some c h hb]
  rfl

/-- TRY_RECEIVE in any state: it found nothing, or a frame is in `FRM` and the rest follows. -/
theorem execTryReceiveIn_spec (c : Config) {s : State} (hi : s.fcu.phase = .idle) :
    (∃ ta d, execTryReceiveIn c s = .next
      { s with
        fcu := { s.fcu with phase := .idle, res := 0x00#8, err := 0x00#8 }
        ta := ta
        trace := s.trace ++ [.taReceive] ++ [.phase .polled] ++ [.phase .noData] ++ [.phase .idle]
        draws := d }) ∨
    (∃ n w ta d, w.length = c.frameSize ∧
      execTryReceiveIn c s = .next (receiveFrame c n
        { s with
          fcu := { s.fcu with phase := .polled, frm := Memory.pokeAll s.fcu.frm 0 w }
          bca := { s.bca with fresh := false }
          ta := ta
          trace := s.trace ++ [.taReceive] ++ [.phase .polled]
          draws := d })) := by
  rcases taReceive_spec c s with ⟨ta, d, e⟩ | ⟨n, w, ta, d, hw, e⟩
  · refine .inl ⟨ta, d, ?_⟩
    rw [execTryReceiveIn, whenIdle_idle hi]
    simp only [e]
    rfl
  · refine .inr ⟨n, w, ta, d, hw, ?_⟩
    rw [execTryReceiveIn, whenIdle_idle hi]
    simp only [e]
    rfl

end Sys2Proof.Machine
end

