-- ==== Sys2Proof/Laws/PerInstr.lean ====
section
/-! SUPPORT. The fields of every encoded command (30_encoding.md R81, R85), one lemma per constructor. -/

namespace Sys2Proof.Laws

/-- The opcode of R85. -/
def opcode : Instr → BitVec 4
  | .configure => 0x1#4
  | .transmit _ => 0x2#4
  | .tryReceive => 0x3#4
  | .getRssi => 0x4#4
  | .radioOn => 0x5#4
  | .radioOff => 0x6#4
  | .pad _ => 0x8#4
  | .encodeFrame => 0x9#4
  | .decodeFrame => 0xA#4
  | .correct => 0xB#4
  | .extractPayload => 0xC#4

/-- The value of the `LEN` field: the operand, 0 for operations without one (R81). -/
def operand : Instr → Nat
  | .configure => 0
  | .transmit len => len
  | .tryReceive => 0
  | .getRssi => 0
  | .radioOn => 0
  | .radioOff => 0
  | .pad len => len
  | .encodeFrame => 0
  | .decodeFrame => 0
  | .correct => 0
  | .extractPayload => 0

/-- The three fields of a command word built from a length that fits. -/
theorem commandWord_fields {len : Nat} (h : len ≤ 255) (op : BitVec 4) :
    opField (commandWord len op) = op ∧ zeroField (commandWord len op) = 0x0#4 ∧
      (lenField (commandWord len op)).toNat = len := by
  have key : ∀ (l : BitVec 8), (commandWord l.toNat op).toNat = l.toNat * 256 + op.toNat := by
    intro l
    simp only [commandWord, BitVec.toNat_append, BitVec.toNat_ofNat, BitVec.ofNat_toNat, BitVec.setWidth_eq]
    rw [Nat.shiftLeft_eq, Nat.shiftLeft_eq]
    have h1 := op.isLt
    rw [← Nat.shiftLeft_eq, ← Nat.shiftLeft_eq, ← Nat.shiftLeft_add_eq_or_of_lt (by omega),
      ← Nat.shiftLeft_add_eq_or_of_lt (by omega), Nat.shiftLeft_eq, Nat.shiftLeft_eq]
    omega
  have hl : (BitVec.ofNat 8 len).toNat = len := by simp; omega
  have hw := key (BitVec.ofNat 8 len)
  rw [hl] at hw
  have hop := op.isLt
  refine ⟨?_, ?_, ?_⟩
  · apply BitVec.eq_of_toNat_eq
    simp only [opField, BitVec.extractLsb'_toNat, hw, Nat.shiftRight_zero]
    omega
  · apply BitVec.eq_of_toNat_eq
    simp only [zeroField, BitVec.extractLsb'_toNat, hw, Nat.shiftRight_eq_div_pow]
    norm_num
    omega
  · simp only [lenField, BitVec.extractLsb'_toNat, hw, Nat.shiftRight_eq_div_pow]
    norm_num
    omega

namespace EncodedFields

/-- The encoded word of a well-formed command has its opcode, a zero `ZERO` field, and its operand in `LEN`. -/
def Statement (i : Instr) : Prop :=
  i.wellFormed = true →
    opField (encode i) = opcode i ∧ zeroField (encode i) = 0x0#4 ∧ (lenField (encode i)).toNat = operand i

theorem configure : Statement .configure := fun _ => commandWord_fields (Nat.zero_le _) _

theorem transmit (len : Nat) : Statement (.transmit len) := fun h =>
  commandWord_fields (by simpa [Instr.wellFormed, lenFits] using h) _

theorem tryReceive : Statement .tryReceive := fun _ => commandWord_fields (Nat.zero_le _) _

theorem getRssi : Statement .getRssi := fun _ => commandWord_fields (Nat.zero_le _) _

theorem radioOn : Statement .radioOn := fun _ => commandWord_fields (Nat.zero_le _) _

theorem radioOff : Statement .radioOff := fun _ => commandWord_fields (Nat.zero_le _) _

theorem pad (len : Nat) : Statement (.pad len) := fun h =>
  commandWord_fields (by simpa [Instr.wellFormed, lenFits] using h) _

theorem encodeFrame : Statement .encodeFrame := fun _ => commandWord_fields (Nat.zero_le _) _

theorem decodeFrame : Statement .decodeFrame := fun _ => commandWord_fields (Nat.zero_le _) _

theorem correct : Statement .correct := fun _ => commandWord_fields (Nat.zero_le _) _

theorem extractPayload : Statement .extractPayload := fun _ => commandWord_fields (Nat.zero_le _) _

end EncodedFields

end Sys2Proof.Laws
end

