-- ==== Sys2Proof/Tests/Fixtures.lean ====
section
/-! SUPPORT. The two made-up Block Codec Adapters of 95_test_vectors.md section 2, as configurations to run the
meanings with. Neither is the hardware's. -/

namespace Sys2Proof.Tests

/-- Byte `i` of a buffer, 0 where there is none. -/
def at0 (f : List Byte) (i : Nat) : Byte := f.getD i 0x00#8

/-! Fixture A, threefold repetition (95_test_vectors.md section 2.1). -/

/-- Whether two of the three copies of a byte agree. -/
def twoAgree (a b c : Byte) : Bool := decide (a = b ∨ a = c ∨ b = c)

/-- The majority of the three copies. -/
def majority (a b c : Byte) : Byte := if a = b ∨ a = c then a else b

/-- Column `i` of a buffer decodes by majority. -/
def columnOk (s : List Byte) (i : Nat) : Bool := twoAgree (at0 s i) (at0 s (4 + i)) (at0 s (8 + i))

/-- The majority of column `i`. -/
def columnByte (s : List Byte) (i : Nat) : Byte := majority (at0 s i) (at0 s (4 + i)) (at0 s (8 + i))

/-- `MAX_PAYLOAD = 4`, `FRAME_SIZE = 12`, `T_CORRECT = 1`; every draw of a byte is `b`, every draw of a truth
value is `v`. -/
def fixtureA (b : Byte) (v : Bool) : Config where
  maxPayload := 4
  frameSize := 12
  tCorrect := 1
  settleDelay := 3
  freqMhz := 433
  modemProfile := 2
  txPowerMax := 20
  diag := false
  enc x i := at0 x (i % 4)
  dec f i := at0 f i
  syn f := decide (¬(f.take 4 = (f.drop 4).take 4 ∧ (f.drop 4).take 4 = f.drop 8))
  corOk s := columnOk s 0 && columnOk s 1 && columnOk s 2 && columnOk s 3
  corByte s i := columnByte s (i % 4)
  anyByte _ _ := b
  anyBool _ := v

/-- The same with every draw 0 and false. -/
def configA : Config := fixtureA 0x00#8 false

/-! Fixture B, Reed-Solomon RS(12, 8) over GF(256) (95_test_vectors.md section 2.2). -/

/-- Multiplication by `a = 0x02` modulo `0x11D`. -/
def timesA (x : Nat) : Nat := if x < 128 then 2 * x else (2 * x) ^^^ 0x11D

/-- Multiplication in the field, by `n` bits of the second factor. -/
def mulBits : Nat → Nat → Nat → Nat
  | 0, _, _ => 0
  | n + 1, x, y => (if y % 2 = 1 then x else 0) ^^^ mulBits n (timesA x) (y / 2)

/-- Multiplication in the field. -/
def mul (x y : Nat) : Nat := mulBits 8 x y

/-- `x` to the power `n`. -/
def pow (x : Nat) : Nat → Nat
  | 0 => 1
  | n + 1 => mul x (pow x n)

/-- The inverse of a nonzero element, `x` to the power 254 by squarings. -/
def inv (x : Nat) : Nat :=
  let x2 := mul x x
  let x4 := mul x2 x2
  let x8 := mul x4 x4
  let x16 := mul x8 x8
  let x32 := mul x16 x16
  let x64 := mul x32 x32
  let x128 := mul x64 x64
  mul x2 (mul x4 (mul x8 (mul x16 (mul x32 (mul x64 x128)))))

/-- One step of the division by `g(x) = x^4 + 1E x^3 + D8 x^2 + E7 x + 74`. -/
def divideStep (r : Nat × Nat × Nat × Nat) (x : Nat) : Nat × Nat × Nat × Nat :=
  let q := r.1 ^^^ x
  (r.2.1 ^^^ mul 0x1E q, r.2.2.1 ^^^ mul 0xD8 q, r.2.2.2 ^^^ mul 0xE7 q, mul 0x74 q)

/-- The four redundancy bytes of a payload. -/
def parityB (x : List Byte) : List Byte :=
  let r := (x.map BitVec.toNat).foldl divideStep (0, 0, 0, 0)
  [r.1, r.2.1, r.2.2.1, r.2.2.2].map (BitVec.ofNat 8)

/-- The value of the buffer's polynomial at `z`. -/
def evalAt (z : Nat) (f : List Byte) : Nat := f.foldl (fun acc b => mul acc z ^^^ b.toNat) 0

/-- The four syndromes `S_1` to `S_4`. -/
def syndromesB (f : List Byte) : List Nat := [2, 4, 8, 16].map (evalAt · f)

/-- The buffer with `e` added at position `i`. -/
def addAt (f : List Byte) (i e : Nat) : List Byte := f.set i (at0 f i ^^^ BitVec.ofNat 8 e)

/-- The corrections in the positions `i` and `j` that the syndromes `s1`, `s2` call for. -/
def repairPair (f : List Byte) (s1 s2 i j : Nat) : List Byte :=
  let xi := pow 2 (11 - i)
  let xj := pow 2 (11 - j)
  let ej := mul (s2 ^^^ mul s1 xi) (inv (mul xj (xi ^^^ xj)))
  let ei := mul (s1 ^^^ mul ej xj) (inv xi)
  addAt (addAt f j ej) i ei

/-- All pairs of positions. -/
def positionPairs : List (Nat × Nat) :=
  (List.range 12).flatMap fun i => (List.range i).map fun j => (i, j)

/-- A codeword within two positions of the buffer, if there is one. -/
def nearestB (f : List Byte) : Option (List Byte) :=
  let s := syndromesB f
  (positionPairs.map fun p => repairPair f (s.getD 0 0) (s.getD 1 0) p.1 p.2).find? fun w =>
    decide (syndromesB w = [0, 0, 0, 0])

/-- `MAX_PAYLOAD = 8`, `FRAME_SIZE = 12`, `T_CORRECT = 2`; every draw is 0 and false. -/
def configB : Config where
  maxPayload := 8
  frameSize := 12
  tCorrect := 2
  settleDelay := 3
  freqMhz := 433
  modemProfile := 2
  txPowerMax := 20
  diag := false
  enc x i := at0 (x ++ parityB x) i
  dec f i := at0 f i
  syn f := decide (syndromesB f ≠ [0, 0, 0, 0])
  corOk s := (nearestB s).isSome
  corByte s i := at0 ((nearestB s).getD s) i
  anyByte _ _ := 0x00#8
  anyBool _ := false

/-! Fixture A meets the contracts, so that claims under them are about something. -/

theorem configA_wf : configA.Wf := by decide

/-- Three copies of which at most one is wrong give the byte back. -/
theorem majority_of_two (a b c x : Byte)
    (h : (if a = x then 0 else 1) + (if b = x then 0 else 1) + (if c = x then 0 else 1) ≤ 1) :
    twoAgree a b c = true ∧ majority a b c = x := by
  unfold twoAgree majority
  split_ifs at h <;> first | omega | (subst_vars; simp_all)

theorem length_four {x : List Byte} (h : x.length = 4) : ∃ a b c d, x = [a, b, c, d] := by
  match x, h with
  | [a, b, c, d], _ => exact ⟨a, b, c, d, rfl⟩

theorem length_twelve {f : List Byte} (h : f.length = 12) :
    ∃ a b c d e g i j k l m n, f = [a, b, c, d, e, g, i, j, k, l, m, n] := by
  match f, h with
  | [a, b, c, d, e, g, i, j, k, l, m, n], _ => exact ⟨a, b, c, d, e, g, i, j, k, l, m, n, rfl⟩

theorem configA_roundTrip : configA.RoundTrip := by
  intro x hx
  obtain ⟨a, b, c, d, rfl⟩ := length_four hx
  constructor
  · simp [configA, fixtureA, Config.decodeBuffer, Config.encode, List.range_succ, at0]
  · simp [configA, fixtureA, Config.encode, List.range_succ, at0]

theorem configA_correctsWithinCapacity : configA.CorrectsWithinCapacity := by
  intro x f hx hf h1 ht
  obtain ⟨x0, x1, x2, x3, rfl⟩ := length_four hx
  obtain ⟨a0, a1, a2, a3, b0, b1, b2, b3, c0, c1, c2, c3, rfl⟩ := length_twelve hf
  have hs : changedPositions [a0, a1, a2, a3, b0, b1, b2, b3, c0, c1, c2, c3] (configA.encode [x0, x1, x2, x3]) =
      ((if a0 = x0 then 0 else 1) + (if b0 = x0 then 0 else 1) + (if c0 = x0 then 0 else 1)) +
      ((if a1 = x1 then 0 else 1) + (if b1 = x1 then 0 else 1) + (if c1 = x1 then 0 else 1)) +
      ((if a2 = x2 then 0 else 1) + (if b2 = x2 then 0 else 1) + (if c2 = x2 then 0 else 1)) +
      ((if a3 = x3 then 0 else 1) + (if b3 = x3 then 0 else 1) + (if c3 = x3 then 0 else 1)) := by
    simp only [changedPositions, Config.encode, configA, fixtureA, at0]
    simp [List.range_succ, List.countP_cons, ite_not]
    omega
  rw [hs] at h1 ht
  have ht' : configA.tCorrect = 1 := rfl
  rw [ht'] at ht
  obtain ⟨p0, q0⟩ := majority_of_two a0 b0 c0 x0 (by omega)
  obtain ⟨p1, q1⟩ := majority_of_two a1 b1 c1 x1 (by omega)
  obtain ⟨p2, q2⟩ := majority_of_two a2 b2 c2 x2 (by omega)
  obtain ⟨p3, q3⟩ := majority_of_two a3 b3 c3 x3 (by omega)
  refine ⟨?_, ?_, ?_⟩
  · by_contra hsyn
    simp [configA, fixtureA] at hsyn
    obtain ⟨⟨rfl, rfl, rfl, rfl⟩, rfl, rfl, rfl, rfl⟩ := hsyn
    split_ifs at h1 ht <;> omega
  · simp [configA, fixtureA, Config.decodeBuffer, List.range_succ, columnOk, at0, p0, p1, p2, p3]
  · simp [configA, fixtureA, Config.decodeBuffer, Config.correctBuffer, List.range_succ, columnByte, at0, q0, q1, q2, q3]

end Sys2Proof.Tests
end

