-- ==== Sys2Proof/Tests/Slice0.lean ====
section
/-! SUPPORT. Tests: ill-formed commands, words of 30_encoding.md R86, vectors of 95_test_vectors.md run with its two
fixtures, and for every statement with hypotheses a state and operands that meet them. -/

namespace Sys2Proof.Tests
open Sys2Proof.Machine

/-! ## Helpers -/

/-- The next state, where there is one. -/
def after (o : Host.Outcome State Fault Refusal) : Option State :=
  match o with
  | .next s => some s
  | _ => none

/-- A field of the next state. -/
def seen {α : Type} (o : Host.Outcome State Fault Refusal) (f : Fcu → α) : Option α := (after o).map fun s => f s.fcu

/-- The next state, or `s` where there is none: to run one command after another. -/
def afterwards (o : Host.Outcome State Fault Refusal) (s : State) : State := (after o).getD s

/-- A space that holds exactly these bytes, from index 0. -/
def mem (bs : List Byte) : Memory := (List.range bs.length).zip bs

/-- The reset state with one part of the FCU changed. -/
def start (f : Fcu → Fcu) : State := { State.reset with fcu := f State.reset.fcu }

/-- The reset state with a TA that answers these next. -/
def startTa (f : Ta → Ta) : State := { State.reset with ta := f State.reset.ta }

/-- The reset state with a frame pending (the directive `.air frame`). -/
def air (bytes : List Byte) (size rssi : Byte) : State :=
  startTa fun ta => { ta with pending := .known (some ⟨bytes, size, rssi⟩) }

/-- The reset state with these inputs. -/
def given (xs : List Input) : State := { State.reset with inputs := xs }

/-- A state with a TRANSMIT waiting for ever, and these inputs. -/
def hung (xs : List Input) : State :=
  { State.reset with
    fcu := { State.reset.fcu with phase := .busy }
    trace := [.phase .busy, .taWaitSendComplete]
    inputs := xs }

/-! ## Syntax: each check refuses an ill-formed command -/

theorem test_pad_256_is_ill_formed : (Instr.pad 256).wellFormed = false ∧ (Instr.pad 255).wellFormed = true := by decide

theorem test_transmit_256_is_ill_formed :
    (Instr.transmit 256).wellFormed = false ∧ (Instr.transmit 255).wellFormed = true := by decide

/-! ## Decoder: vectors V-D1 to V-D25 -/

/-- What the table's number of 16 bits decodes to, for each row of the table. -/
theorem test_table_words :
    [0x0001, 0x0602, 0x0003, 0x0004, 0x0005, 0x0006, 0x0908, 0x0009, 0x000A, 0x000B, 0x000C].map (decodeTableWord 16) =
      [some .configure, some (.transmit 6), some .tryReceive, some .getRssi, some .radioOn, some .radioOff,
        some (.pad 9), some .encodeFrame, some .decodeFrame, some .correct, some .extractPayload] := by decide

/-- The Frame Codec family, bit by bit. -/
theorem test_word_pad : decode 0b1000000000001000#16 = .ok (.pad 128) := by decide

/-- The pipelines, bit by bit. -/
theorem test_word_transmit : decode 0b0000011000000010#16 = .ok (.transmit 6) := by decide

/-- The lifecycle family, bit by bit. -/
theorem test_word_radioOff : decode 0b0000000000000110#16 = .ok .radioOff := by decide

/-- The low byte goes first (20_memory.md R57). -/
theorem test_bytes_low_first : decodeBytes [0x02#8, 0x06#8, 0x99#8] = .ok (.transmit 6, [0x99#8]) := by decide

/-- V-D6, V-D10, V-D18 to V-D25. -/
theorem test_illegal_words :
    [0x0103, 0x0007, 0x000D, 0x000E, 0x000F, 0x0000, 0xFFFF, 0x0012, 0x0612, 0x0083, 0xFF12, 0x020C].all
      (fun w => decide (decodeTableWord 16 w = none)) = true := by decide

/-- Every row of the table runs as the first command after reset. -/
theorem test_every_word_runs_from_reset :
    [0x0001, 0x0002, 0x0602, 0x0003, 0x0004, 0x0005, 0x0006, 0x0008, 0x0009, 0x000A, 0x000B, 0x000C].all
      (fun w => (after (step (State.reset.withFetchWord 16 w))).isSome) = true := by decide

/-- V-D20: an illegal word reports, whatever was in `RES` and `ERR`. -/
theorem test_illegal_word_reports :
    seen (step { start (fun f => { f with res := 0x5A#8 }) with inputs := [.command 0xFFFF#16] })
      (fun f => (f.res, f.err, f.phase)) = some (0x00#8, 0x03#8, .idle) := by decide

/-! ## PAD -/

/-- V-P7 (`MAX_PAYLOAD = 8`): bytes at and above `LEN` are not read. -/
theorem test_pad_two :
    seen (execPadIn configB 2 (start fun f => { f with msg := mem [0x41, 0x42, 0x43, 0x44] }))
      (fun f => (f.pad, f.res, f.err)) = some (mem [0x41, 0x42, 0, 0, 0, 0, 0, 0], 0x00#8, 0x00#8) := by decide

/-- V-P3, V-P4: 8 is legal, 9 is refused and leaves `PAD`. -/
theorem test_pad_boundary :
    seen (execPadIn configB 8 (start fun f => { f with msg := mem [1, 2, 3, 4, 5, 6, 7, 8] })) (fun f => f.pad) =
      some (mem [1, 2, 3, 4, 5, 6, 7, 8]) ∧
    seen (execPadIn configB 9 (start fun f => { f with pad := mem [9, 9, 9, 9, 9, 9, 9, 9] }))
      (fun f => (f.pad, f.res, f.err)) = some (mem [9, 9, 9, 9, 9, 9, 9, 9], 0x00#8, 0x01#8) := by decide

/-! ## ENCODE_FRAME, DECODE_FRAME, CORRECT, EXTRACT_PAYLOAD -/

/-- The frame of V-M1. -/
def frameM1 : List Byte := [0x48, 0x49, 0, 0, 0, 0, 0, 0, 0xB2, 0x89, 0x18, 0xE3]

/-- The frame of V-M3: byte 0 changed. -/
def frameM3 : List Byte := [0x40, 0x49, 0, 0, 0, 0, 0, 0, 0xB2, 0x89, 0x18, 0xE3]

/-- V-M1. -/
theorem test_encodeFrame :
    seen (execEncodeFrameIn configB (start fun f => { f with pad := mem [0x48, 0x49, 0, 0, 0, 0, 0, 0] }))
      (fun f => (f.frm, f.res)) = some (mem frameM1, 0x00#8) := by decide +kernel

/-- V-M2. -/
theorem test_decodeFrame_clean :
    seen (execDecodeFrameIn configB (start fun f => { f with frm := mem frameM1 })) (fun f => (f.frm, f.res)) =
      some (mem frameM1, 0x00#8) := by decide +kernel

/-- V-M3, its first command. -/
theorem test_decodeFrame_nonzero :
    seen (execDecodeFrameIn configB (start fun f => { f with frm := mem frameM3 })) (fun f => (f.frm, f.res)) =
      some (mem frameM3, 0x01#8) := by decide +kernel

/-- The state after the first command of V-M3. -/
def decodedM3 : State :=
  { start (fun f => { f with frm := mem frameM3, res := 0x01#8 }) with bca := { syn := .known true, fresh := true } }

/-- V-M3, its second command. -/
theorem test_correct : seen (execCorrectIn configB decodedM3) (fun f => (f.frm, f.res)) =
    some (mem frameM1, 0x01#8) := by decide +kernel

/-- A CORRECT that follows no decode of this content answers a free value and leaves free bytes (R147). -/
theorem test_correct_stale :
    seen (execCorrectIn (fixtureA 0x77#8 true) (start fun f => { f with frm := mem (List.replicate 12 0x01#8) }))
      (fun f => (f.frm, f.res)) = some (mem (List.replicate 12 0x77#8), 0x01#8) := by decide

/-- So does a CORRECT right after a clean TRY_RECEIVE (V-A1): its decode was no DECODE_FRAME (R262). An empty poll between
a DECODE_FRAME and its CORRECT changes nothing. -/
theorem test_correct_after_receive :
    seen (execCorrectIn (fixtureA 0x77#8 true)
      (afterwards (execTryReceiveIn (fixtureA 0x77#8 true)
        (air [0xDE, 0xAD, 0, 0, 0xDE, 0xAD, 0, 0, 0xDE, 0xAD, 0, 0] 12 0x40)) State.reset)) (fun f => (f.frm, f.res)) =
      some (mem (List.replicate 12 0x77#8), 0x01#8) ∧
    seen (execCorrectIn (fixtureA 0x77#8 true)
      (afterwards (execTryReceiveIn (fixtureA 0x77#8 true)
        { start (fun f => { f with frm := mem [0xDE, 0xAD, 0, 0, 0xDE, 0xAF, 0, 0, 0xDE, 0xAD, 0, 0] }) with
          bca := { syn := .known true, fresh := true }
          ta := { Ta.reset with pending := .known none } }) State.reset)) (fun f => (f.frm, f.res)) =
      some (mem [0xDE, 0xAD, 0, 0, 0xDE, 0xAD, 0, 0, 0xDE, 0xAD, 0, 0], 0x01#8) := by decide

/-- V-M4. -/
theorem test_extractPayload :
    seen (execExtractPayloadIn configB (start fun f => { f with frm := mem frameM1 })) (fun f => (f.out, f.frm, f.res)) =
      some (mem [0x48, 0x49, 0, 0, 0, 0, 0, 0], mem frameM1, 0x00#8) := by decide

/-! ## TRANSMIT -/

/-- V-T1: `PAD`, `FRM`, the results, and what the TA was given. -/
theorem test_transmit :
    (after (execTransmitIn configB 6
      { start (fun f => { f with msg := mem [0x53, 0x52, 0x41, 0x44, 0x69, 0x6F] }) with
        ta := { Ta.reset with confirmAnswer := .known true } })).map
      (fun s => (s.fcu.frm, s.fcu.phase, s.trace.contains
        (.taSend [0x53, 0x52, 0x41, 0x44, 0x69, 0x6F, 0, 0, 0x43, 0x95, 0xD5, 0xD0] 12))) =
      some (mem [0x53, 0x52, 0x41, 0x44, 0x69, 0x6F, 0, 0, 0x43, 0x95, 0xD5, 0xD0], .idle, true) := by decide +kernel

/-- V-T4 and V-T8 (with fixture A): refused without a call; never confirmed, so `PHASE` stays `Busy` and `RES` and `ERR`
stay as they were. -/
theorem test_transmit_refused_and_hung :
    (after (execTransmitIn configA 5 State.reset)).map (fun s => (s.fcu.err, s.trace)) =
      some (0x01#8, [.phase .busy, .phase .idle]) ∧
    seen (execTransmitIn configA 2
      { start (fun f => { f with msg := mem [0xDE, 0xAD], res := 0x03#8 }) with
        ta := { Ta.reset with confirmAnswer := .known false } })
      (fun f => (f.pad, f.res, f.phase)) = some (mem [0xDE, 0xAD, 0, 0], 0x03#8, .busy) := by decide

/-! ## TRY_RECEIVE -/

/-- The status left by TRY_RECEIVE, and `OUT`. -/
def received (c : Config) (s : State) : Option (Byte × Memory) := seen (execTryReceiveIn c s) fun f => (f.res, f.out)

/-- V-A0 to V-A9 with fixture A: nothing, clean, corrected, uncorrectable, short, long. -/
theorem test_tryReceive_statuses :
    (received configA (startTa fun ta => { ta with pending := .known none }) = some (0x00#8, [])) ∧
    (received configA (air [0xDE, 0xAD, 0, 0, 0xDE, 0xAD, 0, 0, 0xDE, 0xAD, 0, 0] 12 0x40) =
      some (0x01#8, mem [0xDE, 0xAD, 0, 0])) ∧
    (received configA (air [0xDE, 0xAD, 0, 0, 0xDE, 0xAF, 0, 0, 0xDE, 0xAD, 0, 0] 12 0x41) =
      some (0x03#8, mem [0xDE, 0xAD, 0, 0])) ∧
    ((received configA (air [0xDE, 0x11, 0, 0, 0xDE, 0x22, 0, 0, 0xDE, 0xAD, 0, 0] 12 0x42)).map (·.1) =
      some 0x07#8) ∧
    (received configA (air [0xDE, 0xAD, 0, 0, 0xDE, 0xAD, 0, 0] 8 0x45) = some (0x0B#8, mem [0xDE, 0xAD, 0, 0])) ∧
    (received configA (air [0xDE, 0xAD, 0, 0, 0xDE, 0xAD, 0, 0, 0xDE, 0xAD, 0, 0, 0x77] 13 0x46) =
      some (0x09#8, mem [0xDE, 0xAD, 0, 0])) ∧
    (received configA (air [0xDE, 0xAD, 0, 0] 4 0x47) = some (0x0B#8, mem [0, 0, 0, 0])) := by
  refine ⟨?_, ?_, ?_, ?_, ?_, ?_, ?_⟩ <;> decide

/-- V-B3 and V-B6 with fixture B: two positions corrected; three positions corrected to another codeword. -/
theorem test_tryReceive_reedSolomon :
    (received configB (air [0x52, 0x52, 0x41, 0x44, 0x69, 0x6F, 0, 0, 0x43, 0x95, 0xD5, 0x50] 12 0x5A) =
      some (0x03#8, mem [0x53, 0x52, 0x41, 0x44, 0x69, 0x6F, 0, 0])) ∧
    (received configB (air [0x53, 0x52, 0x41, 0x44, 0x69, 0x6F, 0, 1, 0x5D, 0x4D, 0xD5, 0xD0] 12 0x5A) =
      some (0x03#8, mem [0x53, 0x52, 0x41, 0x44, 0x69, 0x6F, 0, 1])) := by decide +kernel

/-! ## The lifecycle -/

/-- V-L1 to V-L4: `RES`, `ERR`, `RS.power`. -/
theorem test_configure :
    [(true, true), (true, false), (false, true), (false, false)].map (fun p =>
      seen (execConfigureIn configA
        (startTa fun ta => { ta with probeAnswer := .known p.1, frequencyAnswer := .known p.2 }))
        (fun f => (f.res, f.err, f.power))) =
      [some (0x03#8, 0x00#8, .on), some (0x01#8, 0x02#8, .on), some (0x02#8, 0x02#8, .on),
        some (0x00#8, 0x02#8, .on)] := by decide

/-- The eight calls of 95_test_vectors.md section 3.8, in order. -/
theorem test_configure_calls :
    (after (execConfigureIn configA State.reset)).map (fun s => callsMade s.trace) =
      some [.platInitBus, .taPowerOff, .platDelay 3, .taPowerOn, .taInitialize 12, .taSetFrequency 433,
        .taSetModemProfile 2, .taSetTransmitPower 20] := by decide

/-- V-L5, V-L6. -/
theorem test_radioOff_radioOn :
    seen (execRadioOffIn configA (start fun f => { f with power := .on })) (fun f => (f.power, f.res)) =
      some (.off, 0x00#8) ∧
    seen (execRadioOnIn configA (start fun f => { f with power := .off })) (fun f => (f.power, f.res)) =
      some (.on, 0x00#8) := by decide

/-- V-L10 and V-L8: the record, which stays; any byte where it is unknown. -/
theorem test_getRssi :
    seen (execGetRssiIn configA (start fun f => { f with rssi := .known 0x5A#8 })) (fun f => (f.res, f.rssi)) =
      some (0x5A#8, .known 0x5A#8) ∧
    seen (execGetRssiIn (fixtureA 0x99#8 false) State.reset) (fun f => (f.res, f.rssi)) =
      some (0x99#8, .unknown) := by decide

/-! ## Witnesses: what each statement assumes can be met. -/

/-- DecodeOfEncodeIsTheCommand, at both ends of `LEN`. -/
theorem witness_wellFormed : (Instr.transmit 255).wellFormed = true ∧ (Instr.pad 0).wellFormed = true ∧
    Instr.correct.wellFormed = true := by decide

/-- EncodeOfDecodeIsTheWord. -/
theorem witness_decoded : decode 0xFF02#16 = .ok (.transmit 255) ∧ decode 0x000C#16 = .ok .extractPayload := by decide

/-- StepRunsTheIssuedCommand, both clauses. -/
theorem witness_issued_command :
    (given [.command 0x0208#16]).inputs = .command 0x0208#16 :: [] ∧ decode 0x0208#16 = .ok (.pad 2) ∧
      (Instr.pad 2).wellFormed = true := by decide

/-- IllegalWordOnlyReports. -/
theorem witness_illegal_word :
    (given [.command 0x0007#16]).inputs = .command 0x0007#16 :: [] ∧ decode 0x0007#16 = .error .reservedOpcode ∧
      (given [.command 0x0007#16]).fcu.phase = .idle := by decide

/-- NothingIsAcceptedWhileRunning, every clause. -/
theorem witness_running :
    (∀ xs, (hung xs).fcu.phase ≠ .idle) ∧
    (hung [.command 0x0004#16]).inputs = .command 0x0004#16 :: [] ∧
    (hung [.writeMsg 0 1]).inputs = .writeMsg 0 1 :: [] ∧
    (hung [.writeOut 0 1]).inputs = .writeOut 0 1 :: [] ∧
    (hung [.writeFrm 0 1]).inputs = .writeFrm 0 1 :: [] := by
  refine ⟨fun xs => ?_, rfl, rfl, rfl, rfl⟩
  simp [hung]

/-- HostWritesOneWindowByte: the last byte of each window, and the first index beyond it. -/
theorem witness_host_writes (b : Byte) :
    (∀ xs, (given xs).fcu.phase = .idle) ∧
    (∃ i, (given [.writeMsg i b]).inputs = .writeMsg i b :: [] ∧ i < Config.hw.maxPayload ∧
      Config.hw.maxPayload ≤ i + 1) ∧
    (∃ i, (given [.writeOut i b]).inputs = .writeOut i b :: [] ∧ i < Config.hw.maxPayload ∧
      Config.hw.maxPayload ≤ i + 1) ∧
    (∃ i, (given [.writeFrm i b]).inputs = .writeFrm i b :: [] ∧ i < Config.hw.frameSize ∧
      Config.hw.frameSize ≤ i + 1) := by
  obtain ⟨h1, _, h3, _, _⟩ := Config.hw_wf
  exact ⟨fun _ => rfl, ⟨Config.hw.maxPayload - 1, rfl, by omega, by omega⟩,
    ⟨Config.hw.maxPayload - 1, rfl, by omega, by omega⟩, ⟨Config.hw.frameSize - 1, rfl, by omega, by omega⟩⟩

/-- WithoutInputIdleWaitsAndBusyIsStuck, both clauses. -/
theorem witness_no_input :
    State.reset.inputs = [] ∧ State.reset.fcu.phase = .idle ∧ (hung []).inputs = [] ∧
      (hung []).fcu.phase ≠ .idle := by decide

/-- EnvironmentInputsSetOneFieldOfTheAdapter: each input, while idle and while a TRANSMIT hangs. -/
theorem witness_environment_inputs :
    (given [.air none]).inputs = .air none :: [] ∧ (hung [.air none]).inputs = .air none :: [] ∧
    (given [.probe true]).inputs = .probe true :: [] ∧ (hung [.probe false]).inputs = .probe false :: [] ∧
    (given [.frequency true]).inputs = .frequency true :: [] ∧
    (hung [.frequency false]).inputs = .frequency false :: [] ∧
    (given [.confirm true]).inputs = .confirm true :: [] ∧ (hung [.confirm true]).inputs = .confirm true :: [] := by
  decide

/-- ResetEstablishesTheResetState. -/
theorem witness_reset_input : (hung [.reset]).inputs = .reset :: [] := by decide

/-- StepKeepsInvariant: a state with a command issued meets the invariant and steps on. -/
theorem witness_invariant_and_step :
    (given [.command 0x0004#16]).Inv Config.hw ∧ ∃ t, step (given [.command 0x0004#16]) = .next t := by
  refine ⟨⟨?_, .inl rfl, ?_, ?_⟩, _, rfl⟩
  · intro sp
    cases sp <;> exact ⟨List.Pairwise.nil, fun x hx => absurd hx List.not_mem_nil⟩
  · show (0x00#8 : Byte).toNat ≤ 3
    decide
  · intro h
    cases h

/-- StepKeepsInvariant: so does a state hung in a send, on an input from AIR. -/
theorem witness_invariant_and_step_hung :
    (hung [.air none]).PhaseInv ∧ ∃ t, step (hung [.air none]) = .next t := ⟨.inr ⟨rfl, rfl⟩, _, rfl⟩

/-- The statements about a command with a length: PAD, TRANSMIT, legal at both ends and oversize, from an idle state. -/
theorem witness_lengths :
    State.reset.fcu.phase = .idle ∧ 0 ≤ Config.hw.maxPayload ∧ Config.hw.maxPayload ≤ Config.hw.maxPayload ∧
      Config.hw.maxPayload < Config.hw.maxPayload + 1 ∧ Config.hw.maxPayload + 1 ≤ 255 := by
  obtain ⟨_, h2, _, _, _⟩ := Config.hw_wf
  exact ⟨rfl, Nat.zero_le _, le_rfl, Nat.lt_succ_self _, by omega⟩

/-- RepaddingIsIdempotent. -/
theorem witness_repad : State.reset.fcu.phase = .idle ∧ 1 ≤ Config.hw.maxPayload ∧
    Config.hw.maxPayload ≤ Config.hw.maxPayload := ⟨rfl, Config.hw_wf.1, le_rfl⟩

/-- MessageBeyondLengthIsNotRead: two Messages that differ at index 1, and a length of 1. -/
theorem witness_message_beyond_length :
    (start fun f => { f with msg := mem [0x48] }).fcu.phase = .idle ∧
      (1 ≤ Config.hw.maxPayload → ∀ a, a < 1 →
        Memory.peek (mem [0x48, 0x49]) a = Memory.peek (start fun f => { f with msg := mem [0x48] }).fcu.msg a) ∧
      Memory.peek (mem [0x48, 0x49]) 1 ≠ Memory.peek (mem [0x48]) 1 := by
  refine ⟨rfl, fun _ a ha => ?_, by decide⟩
  obtain rfl : a = 0 := by omega
  decide

/-- A full space of zero bytes. -/
def zeros (n : Nat) : Memory := Memory.pokeAll [] 0 (List.replicate n 0x00#8)

/-- EncodeFrameDependsOnPadAlone. -/
theorem witness_full_pad :
    (List.replicate Config.hw.maxPayload 0x00#8).length = Config.hw.maxPayload ∧
      (start fun f => { f with pad := zeros Config.hw.maxPayload }).fcu.phase = .idle ∧
      Memory.Holds (start fun f => { f with pad := zeros Config.hw.maxPayload }).fcu.pad
        (List.replicate Config.hw.maxPayload 0x00#8) :=
  ⟨List.length_replicate, rfl, Memory.holds_pokeAll _ _⟩

/-- CorrectAfterDecodeAnswersTheCode. -/
theorem witness_fresh_decode :
    ∃ s : State, s.fcu.phase = .idle ∧ s.bca.fresh = true ∧
      (List.replicate Config.hw.frameSize 0x00#8).length = Config.hw.frameSize ∧
      Memory.Holds s.fcu.frm (List.replicate Config.hw.frameSize 0x00#8) :=
  ⟨{ start (fun f => { f with frm := zeros Config.hw.frameSize }) with bca := { syn := .known false, fresh := true } },
    rfl, rfl, List.length_replicate, Memory.holds_pokeAll _ _⟩

/-- CorrectAfterDecodeAnswersTheCode: its two cases are both met by a code, fixture A. -/
theorem witness_both_corrections :
    configA.corOk [0xDE, 0xAD, 0, 0, 0xDE, 0xAF, 0, 0, 0xDE, 0xAD, 0, 0] = true ∧
      configA.corOk [0xDE, 0x11, 0, 0, 0xDE, 0x22, 0, 0, 0xDE, 0xAD, 0, 0] = false := by decide

/-- TransmitSendsTheEncodedMessage and TransmitHangsWhenNeverConfirmed, with the hang's two follow-ups. -/
theorem witness_confirmation (b : Bool) (xs : List Input) :
    ∃ s : State, s.fcu.phase = .idle ∧ s.ta.confirmAnswer = .known b ∧ s.inputs = xs :=
  ⟨{ startTa (fun ta => { ta with confirmAnswer := .known b }) with inputs := xs }, rfl, rfl, rfl⟩

/-- SameMessageSendsTheSameFrame: two different states that hold the same Message of full length. -/
theorem witness_same_message :
    ∃ s s' : State, s ≠ s' ∧ s.fcu.phase = .idle ∧ s'.fcu.phase = .idle ∧
      (List.replicate Config.hw.maxPayload 0x00#8).length ≤ Config.hw.maxPayload ∧
      Memory.Holds s.fcu.msg (List.replicate Config.hw.maxPayload 0x00#8) ∧
      Memory.Holds s'.fcu.msg (List.replicate Config.hw.maxPayload 0x00#8) := by
  refine ⟨start fun f => { f with msg := zeros Config.hw.maxPayload },
    start fun f => { f with msg := zeros Config.hw.maxPayload, power := .on }, ?_, rfl, rfl,
    le_of_eq List.length_replicate, Memory.holds_pokeAll _ _, Memory.holds_pokeAll _ _⟩
  intro h
  have h' := congrArg (fun s : State => s.fcu.power) h
  cases h'

/-- EmptyPollIsSideEffectFree. -/
theorem witness_nothing_pending :
    (startTa fun ta => { ta with pending := .known none }).fcu.phase = .idle ∧
      (startTa fun ta => { ta with pending := .known none }).ta.pending = .known none := by decide

/-- ReceivedFrameGivesStatusAndPayload and ReceiveIsDecodeCorrectExtract. -/
theorem witness_pending :
    (air [1, 2, 3] 3 0x40).fcu.phase = .idle ∧ (air [1, 2, 3] 3 0x40).ta.pending = .known (some ⟨[1, 2, 3], 3, 0x40⟩) := by
  decide

/-- AnyArrivalDeliversFrmInOut: a known arrival reports a message, and so does one that AIR has not decided and a draw
brings (fixture A, every truth value drawn true). -/
theorem witness_arrivals :
    (∃ t, exec .tryReceive (air [1, 2, 3] 3 0x40) = .next t ∧ t.fcu.res.getLsbD 0 = true) ∧
      State.reset.ta.pending = .unknown ∧
      (received (fixtureA 0x00#8 true) State.reset).map (fun p => p.1.getLsbD 0) = some true := by
  refine ⟨⟨_, execTryReceiveIn_some Config.hw (s := air [1, 2, 3] 3 0x40) rfl rfl, ?_⟩, rfl, by decide⟩
  rw [receiveFrame_eq]
  exact (status_bits _ _ _).2.1

/-- The four paths of a receive are all met by a code, fixture A: clean, corrected, uncorrectable, and nothing. -/
theorem witness_receive_paths :
    configA.syn [0xDE, 0xAD, 0, 0, 0xDE, 0xAD, 0, 0, 0xDE, 0xAD, 0, 0] = false ∧
    configA.syn [0xDE, 0xAD, 0, 0, 0xDE, 0xAF, 0, 0, 0xDE, 0xAD, 0, 0] = true ∧
    configA.syn [0xDE, 0x11, 0, 0, 0xDE, 0x22, 0, 0, 0xDE, 0xAD, 0, 0] = true := by decide

/-- CONFIGURE, RADIO_ON, RADIO_OFF, GET_RSSI, and every statement that assumes no more than an idle state; the two known
answers of CONFIGURE and a known record. -/
theorem witness_idle :
    State.reset.fcu.phase = .idle ∧
    (startTa fun ta => { ta with probeAnswer := .known true, frequencyAnswer := .known false }).ta.probeAnswer =
      .known true ∧
    (startTa fun ta => { ta with probeAnswer := .known true, frequencyAnswer := .known false }).ta.frequencyAnswer =
      .known false ∧
    (start fun f => { f with rssi := .known 0x5A#8 }).fcu.rssi = .known 0x5A#8 := by decide

/-- EveryCommandButTransmitReturnsToIdle. -/
theorem witness_not_transmit : State.reset.fcu.phase = .idle ∧ ∀ len, Instr.pad 0 ≠ .transmit len :=
  ⟨rfl, fun _ h => by cases h⟩

/-- OnlyLifecycleCommandsWritePower. -/
theorem witness_other_than_lifecycle :
    ∃ t, exec .getRssi State.reset = .next t ∧ Instr.getRssi ≠ .configure ∧ Instr.getRssi ≠ .radioOn ∧
      Instr.getRssi ≠ .radioOff := ⟨_, rfl, by decide, by decide, by decide⟩

/-- OnlyAnArrivalWritesRssi and BufferWritersFollowTheAccessTable: commands of every clause answer a next state. -/
theorem witness_next_states :
    (∃ t, exec .tryReceive (startTa fun ta => { ta with pending := .known none }) = .next t ∧ t.fcu.res = 0x00#8) ∧
    (∃ t, exec .extractPayload State.reset = .next t) ∧ (∃ t, exec .encodeFrame State.reset = .next t) ∧
    (∃ t, exec (.pad 0) State.reset = .next t) ∧ ∃ t, exec .radioOn State.reset = .next t :=
  ⟨⟨_, rfl, rfl⟩, ⟨_, rfl⟩, ⟨_, rfl⟩, ⟨_, rfl⟩, ⟨_, rfl⟩⟩

/-- EarlierResultsHaveNoEffect. -/
theorem witness_completed : ∃ t, exec .radioOff State.reset = .next t ∧ t.fcu.phase = .idle := ⟨_, rfl, rfl⟩

/-- A station with the Message `DE AD` and a TA that confirms. -/
def station : State :=
  { start (fun f => { f with msg := mem [0xDE, 0xAD] }) with ta := { Ta.reset with confirmAnswer := .known true } }

/-- CleanLinkDeliversTheMessage: fixture A keeps the contract, and both stations exist. -/
theorem witness_clean_link :
    configA.Wf ∧ configA.RoundTrip ∧ [0xDE#8, 0xAD#8].length ≤ configA.maxPayload ∧ station.fcu.phase = .idle ∧
      station.ta.confirmAnswer = .known true ∧ Memory.Holds station.fcu.msg [0xDE#8, 0xAD#8] ∧
      ∀ frame r, (air frame (BitVec.ofNat 8 configA.frameSize) r).fcu.phase = .idle ∧
        (air frame (BitVec.ofNat 8 configA.frameSize) r).ta.pending =
          .known (some ⟨frame, BitVec.ofNat 8 configA.frameSize, r⟩) := by
  refine ⟨configA_wf, configA_roundTrip, by decide, rfl, rfl, ?_, fun _ _ => ⟨rfl, rfl⟩⟩
  intro i h
  have h' : i = 0 ∨ i = 1 := by simp only [List.length_cons, List.length_nil] at h; omega
  rcases h' with rfl | rfl <;> rfl

/-- CorruptedLinkWithinCapacityDeliversTheMessage: the contract, and a frame with one byte changed. -/
theorem witness_corrupted_link :
    configA.CorrectsWithinCapacity ∧
      changedPositions [0xDE, 0xAD, 0, 0, 0xDE, 0xAF, 0, 0, 0xDE, 0xAD, 0, 0] (configA.encode [0xDE, 0xAD, 0, 0]) = 1 ∧
      configA.tCorrect = 1 ∧ configA.frameSize = 12 :=
  ⟨configA_correctsWithinCapacity, by decide, rfl, rfl⟩

/-- A scripted code that always finds errors and never corrects them (95_test_vectors.md section 3.5). -/
def configUncorrectable : Config := { configA with syn := fun _ => true, corOk := fun _ => false }

/-- BeyondCapacityFrameIsFlagged. -/
theorem witness_beyond_capacity :
    configUncorrectable.Wf ∧ configUncorrectable.BeyondCapacityDetected ∧
      configUncorrectable.tCorrect <
        changedPositions (List.replicate 12 0xFF#8) (configUncorrectable.encode [0xDE, 0xAD, 0, 0]) ∧
      (air (List.replicate 12 0xFF#8) (BitVec.ofNat 8 configUncorrectable.frameSize) 0x21#8).ta.pending =
        .known (some ⟨List.replicate 12 0xFF#8, BitVec.ofNat 8 configUncorrectable.frameSize, 0x21#8⟩) :=
  ⟨by decide, fun _ _ _ _ _ => ⟨rfl, rfl⟩, by decide, rfl⟩

/-- SentFrameIsReceivedAsTheCodeSays: an empty Message, and a station with its frame pending. -/
theorem witness_sent_frame (f : List Byte) (r : Byte) :
    ([] : List Byte).length ≤ Config.hw.maxPayload ∧ station.fcu.phase = .idle ∧
      station.ta.confirmAnswer = .known true ∧ Memory.Holds station.fcu.msg [] ∧
      (air f (BitVec.ofNat 8 Config.hw.frameSize) r).fcu.phase = .idle ∧
      (air f (BitVec.ofNat 8 Config.hw.frameSize) r).ta.pending =
        .known (some ⟨f, BitVec.ofNat 8 Config.hw.frameSize, r⟩) :=
  ⟨Nat.zero_le _, rfl, rfl, fun _ h => absurd h (Nat.not_lt_zero _), rfl, rfl⟩

/-- BeyondCapacityPropertyContradictsTheContracts. -/
theorem witness_contracts : configA.Wf ∧ configA.RoundTrip ∧ configA.CorrectsWithinCapacity :=
  ⟨configA_wf, configA_roundTrip, configA_correctsWithinCapacity⟩

end Sys2Proof.Tests
end

