-- ==== Sys2Proof/Proofs/Registers.lean ====
section
/-! PROOFS. The registers of the FCU that a command writes and never reads: `RS.power`, `RES`, `ERR` (10_state.md R21,
R23, R24), and the values `PHASE` and `RS.rssi` end with (R22, R27). -/

namespace Sys2Proof.Machine

/-! ## What a command leaves in `PHASE` and `RS.rssi` -/

/-- R27, R22: a command other than the two pipelines returns to `Idle` and keeps `RS.rssi`. -/
theorem exec_ends_idle_and_keeps_rssi {i : Instr} {s : State} (hi : s.fcu.phase = .idle)
    (htx : ∀ len, i ≠ .transmit len) (hrx : i ≠ .tryReceive) :
    ∃ t, exec i s = .next t ∧ t.fcu.phase = .idle ∧ t.fcu.rssi = s.fcu.rssi := by
  cases i with
  | transmit len => exact absurd rfl (htx len)
  | tryReceive => exact absurd rfl hrx
  | configure => exact ⟨_, execConfigureIn_eq Config.hw hi, rfl, rfl⟩
  | getRssi => exact ⟨_, execGetRssiIn_eq Config.hw hi, rfl, rfl⟩
  | radioOn => exact ⟨_, execRadioOnIn_eq Config.hw hi, rfl, rfl⟩
  | radioOff => exact ⟨_, execRadioOffIn_eq Config.hw hi, rfl, rfl⟩
  | pad len =>
    rcases Nat.lt_or_ge Config.hw.maxPayload len with h | h
    · exact ⟨_, execPadIn_oversize _ hi h, rfl, rfl⟩
    · exact ⟨_, execPadIn_legal _ hi h, rfl, rfl⟩
  | encodeFrame => exact ⟨_, execEncodeFrameIn_eq Config.hw hi, rfl, rfl⟩
  | decodeFrame => exact ⟨_, execDecodeFrameIn_eq Config.hw hi, rfl, rfl⟩
  | correct =>
    obtain ⟨ok, w, -, h⟩ := execCorrectIn_spec Config.hw hi
    exact ⟨_, h, rfl, rfl⟩
  | extractPayload => exact ⟨_, execExtractPayloadIn_eq Config.hw hi, rfl, rfl⟩

/-- A TRANSMIT keeps `RS.rssi`, refused, completed or hung. -/
theorem exec_transmit_keeps_rssi (len : Nat) {s : State} (hi : s.fcu.phase = .idle) :
    ∃ t, exec (.transmit len) s = .next t ∧ t.fcu.rssi = s.fcu.rssi := by
  rcases Nat.lt_or_ge Config.hw.maxPayload len with h | h
  · exact ⟨_, execTransmitIn_oversize _ hi h, rfl⟩
  · exact ⟨_, execTransmitIn_legal _ hi h, rfl⟩

/-- R178: from a fetched frame on, TRY_RECEIVE reports it (`R = 1`), records a strength and returns to `Idle`. -/
theorem receiveFrame_reports (c : Config) (n : Byte) (s : State) :
    (receiveFrame c n s).fcu.phase = .idle ∧ (receiveFrame c n s).fcu.res.getLsbD 0 = true ∧
      (receiveFrame c n s).fcu.rssi ≠ .unknown := by
  rw [receiveFrame_eq]
  obtain ⟨-, hr, -⟩ := status_bits (c.syn (receivedBlock c s))
    (c.syn (receivedBlock c s) && !c.corOk (c.decodeBuffer (receivedBlock c s))) (sizeMismatch c.frameSize n)
  exact ⟨rfl, hr, nofun⟩

/-- R176 to R178: TRY_RECEIVE returns to `Idle`, and either found nothing and kept `RS.rssi`, or reports a frame and
leaves `RS.rssi` known. -/
theorem exec_tryReceive_ends_idle {s : State} (hi : s.fcu.phase = .idle) :
    ∃ t, exec .tryReceive s = .next t ∧ t.fcu.phase = .idle ∧
      ((t.fcu.res.getLsbD 0 = true ∧ t.fcu.rssi ≠ .unknown) ∨ t.fcu.rssi = s.fcu.rssi) := by
  rcases execTryReceiveIn_spec Config.hw hi with ⟨ta, d, h⟩ | ⟨n, w, ta, d, -, h⟩
  · exact ⟨_, h, rfl, .inr rfl⟩
  · obtain ⟨hp, hreport⟩ := receiveFrame_reports Config.hw n _
    exact ⟨_, h, hp, .inl hreport⟩

/-- Settles O41: the two pipelines apart, every command ends idle; TRY_RECEIVE does on both its paths. -/
theorem everyCommandButTransmitReturnsToIdle : Obligations.EveryCommandButTransmitReturnsToIdle := by
  intro i s hi htx
  by_cases hrx : i = .tryReceive
  · subst hrx
    obtain ⟨t, h, hp, -⟩ := exec_tryReceive_ends_idle hi
    exact ⟨t, h, hp⟩
  · obtain ⟨t, h, hp, -⟩ := exec_ends_idle_and_keeps_rssi hi htx hrx
    exact ⟨t, h, hp⟩

/-- R22: every command keeps `RS.rssi`, but a TRY_RECEIVE that reports a frame. -/
theorem exec_rssi (i : Instr) {s : State} (hi : s.fcu.phase = .idle) :
    ∃ t, exec i s = .next t ∧
      ((i = .tryReceive ∧ t.fcu.res.getLsbD 0 = true ∧ t.fcu.rssi ≠ .unknown) ∨ t.fcu.rssi = s.fcu.rssi) := by
  by_cases hrx : i = .tryReceive
  · subst hrx
    obtain ⟨t, h, -, hrssi⟩ := exec_tryReceive_ends_idle hi
    exact ⟨t, h, hrssi.imp_left fun hreport => ⟨rfl, hreport⟩⟩
  by_cases htx : ∃ len, i = .transmit len
  · obtain ⟨len, rfl⟩ := htx
    obtain ⟨t, h, hrssi⟩ := exec_transmit_keeps_rssi len hi
    exact ⟨t, h, .inr hrssi⟩
  · obtain ⟨t, h, -, hrssi⟩ := exec_ends_idle_and_keeps_rssi hi (fun len hlen => htx ⟨len, hlen⟩) hrx
    exact ⟨t, h, .inr hrssi⟩

/-- Settles O43: only the path of TRY_RECEIVE that found a frame writes `RS.rssi`. -/
theorem onlyAnArrivalWritesRssi : Obligations.OnlyAnArrivalWritesRssi := by
  intro i s t ht
  obtain ⟨u, hu, hrssi⟩ := exec_rssi i (idle_of_exec_next ht)
  obtain rfl : u = t := Host.Outcome.next.inj (hu.symm.trans ht)
  exact hrssi

/-! ## `RS.power`, `RES` and `ERR` steer nothing -/

/-- The state with other values in `RS.power`, `RES` and `ERR`, the three registers that no command reads. -/
def State.withRegs (s : State) (p : Power) (r e : Byte) : State :=
  { s with fcu := { s.fcu with power := p, res := r, err := e } }

/-- A state that is idle is idle with other values there. -/
theorem State.withRegs_idle {s : State} (hi : s.fcu.phase = .idle) {p : Power} {r e : Byte} :
    (s.withRegs p r e).fcu.phase = .idle := hi

/-- What a command leaves in `RS.power` where `p` stood before (R21). -/
def powerAfter : Instr → Power → Power
  | .configure, _ => .on
  | .radioOn, _ => .on
  | .radioOff, _ => .off
  | _, p => p

/-- `t` with the registers that a command `i` leaves where `p`, `r` and `e` stood before it: a command that completes
writes `RES` and `ERR` (R23, R24), a TRANSMIT that hangs keeps them (42_transmit.md R166). -/
def State.withRegsAfter (t : State) (i : Instr) (p : Power) (r e : Byte) : State :=
  t.withRegs (powerAfter i p) (if t.fcu.phase = .idle then t.fcu.res else r)
    (if t.fcu.phase = .idle then t.fcu.err else e)

/-- From a fetched frame on, TRY_RECEIVE carries `RS.power` along and overwrites `RES` and `ERR`. -/
theorem receiveFrame_withRegs (c : Config) (n : Byte) (s : State) (p : Power) (r e : Byte) :
    receiveFrame c n (s.withRegs p r e) = (receiveFrame c n s).withRegsAfter .tryReceive p r e := by
  simp only [receiveFrame_eq]
  rfl

/-- CORRECT, as what `BCA.correct` answers and leaves. -/
theorem execCorrectIn_eq (c : Config) {s : State} (hi : s.fcu.phase = .idle) :
    execCorrectIn c s = .next (finish (flagByte (bcaCorrect c (issue s)).1) .ok (bcaCorrect c (issue s)).2) := by
  rw [execCorrectIn, whenIdle_idle hi]

/-- TRANSMIT carries `RS.power` along, and `RES` and `ERR` where it hangs. -/
theorem exec_transmit_withRegs (len : Nat) {s : State} (hi : s.fcu.phase = .idle) :
    ∃ t, exec (.transmit len) s = .next t ∧
      ∀ p r e, exec (.transmit len) (s.withRegs p r e) = .next (t.withRegsAfter (.transmit len) p r e) := by
  rcases Nat.lt_or_ge Config.hw.maxPayload len with h | h
  · exact ⟨_, execTransmitIn_oversize _ hi h, fun _ _ _ => execTransmitIn_oversize _ (State.withRegs_idle hi) h⟩
  · refine ⟨_, execTransmitIn_legal _ hi h, fun p r e =>
      (execTransmitIn_legal Config.hw (State.withRegs_idle hi) h).trans ?_⟩
    have hc : transmitConfirmed Config.hw (s.withRegs p r e) = transmitConfirmed Config.hw s := rfl
    rw [hc]
    cases transmitConfirmed Config.hw s <;> rfl

/-- `TA.receive` reads none of the three registers and carries them along. -/
theorem taReceive_withRegs (c : Config) (s : State) (p : Power) (r e : Byte) :
    taReceive c (s.withRegs p r e) = ((taReceive c s).1, (taReceive c s).2.withRegs p r e) := by
  cases hp : s.ta.pending with
  | known unit =>
    cases unit with
    | none => rw [taReceive_none c hp, taReceive_none c (s := s.withRegs p r e) hp]; rfl
    | some u => rw [taReceive_some c hp, taReceive_some c (s := s.withRegs p r e) hp]; rfl
  | unknown =>
    cases hb : c.anyBool s.draws with
    | false => rw [taReceive_unknown_none c hp hb, taReceive_unknown_none c (s := s.withRegs p r e) hp hb]; rfl
    | true => rw [taReceive_unknown_some c hp hb, taReceive_unknown_some c (s := s.withRegs p r e) hp hb]; rfl

/-- TRY_RECEIVE whose `TA.receive` finds no frame. -/
theorem execTryReceiveIn_of_taReceive_none (c : Config) {s u : State} (hi : s.fcu.phase = .idle)
    (h : taReceive c s = (none, u)) :
    execTryReceiveIn c s = .next (finish Status.none.byte .ok ((u.setPhase .polled).setPhase .noData)) := by
  rw [execTryReceiveIn, whenIdle_idle hi, h]

/-- TRY_RECEIVE whose `TA.receive` finds a frame of reported size `n`. -/
theorem execTryReceiveIn_of_taReceive_some (c : Config) {s u : State} {n : Byte} (hi : s.fcu.phase = .idle)
    (h : taReceive c s = (some n, u)) :
    execTryReceiveIn c s = .next (receiveFrame c n (u.setPhase .polled)) := by
  rw [execTryReceiveIn, whenIdle_idle hi, h]

/-- TRY_RECEIVE carries `RS.power` along and overwrites `RES` and `ERR`, whatever `TA.receive` finds. -/
theorem exec_tryReceive_withRegs {s : State} (hi : s.fcu.phase = .idle) :
    ∃ t, exec .tryReceive s = .next t ∧
      ∀ p r e, exec .tryReceive (s.withRegs p r e) = .next (t.withRegsAfter .tryReceive p r e) := by
  have hrx := taReceive_withRegs Config.hw s
  rcases h : taReceive Config.hw s with ⟨_ | n, u⟩ <;> simp only [h] at hrx
  · exact ⟨_, execTryReceiveIn_of_taReceive_none _ hi h, fun p r e =>
      execTryReceiveIn_of_taReceive_none _ (State.withRegs_idle hi) (hrx p r e)⟩
  · exact ⟨_, execTryReceiveIn_of_taReceive_some _ hi h, fun p r e =>
      (execTryReceiveIn_of_taReceive_some _ (State.withRegs_idle hi) (hrx p r e)).trans
        (congrArg _ (receiveFrame_withRegs _ n (u.setPhase .polled) p r e))⟩

/-- R21, R23, R24: changing `RS.power`, `RES` and `ERR` before a command changes nothing after it but those registers,
and them only as far as the command keeps them. -/
theorem exec_withRegs (i : Instr) {s : State} (hi : s.fcu.phase = .idle) :
    ∃ t, exec i s = .next t ∧ ∀ p r e, exec i (s.withRegs p r e) = .next (t.withRegsAfter i p r e) := by
  cases i with
  | configure =>
    exact ⟨_, execConfigureIn_eq Config.hw hi, fun _ _ _ => execConfigureIn_eq _ (State.withRegs_idle hi)⟩
  | transmit len => exact exec_transmit_withRegs len hi
  | tryReceive => exact exec_tryReceive_withRegs hi
  | getRssi =>
    exact ⟨_, execGetRssiIn_eq Config.hw hi, fun _ _ _ => execGetRssiIn_eq _ (State.withRegs_idle hi)⟩
  | radioOn =>
    exact ⟨_, execRadioOnIn_eq Config.hw hi, fun _ _ _ => execRadioOnIn_eq Config.hw (State.withRegs_idle hi)⟩
  | radioOff =>
    exact ⟨_, execRadioOffIn_eq Config.hw hi, fun _ _ _ => execRadioOffIn_eq Config.hw (State.withRegs_idle hi)⟩
  | pad len =>
    rcases Nat.lt_or_ge Config.hw.maxPayload len with h | h
    · exact ⟨_, execPadIn_oversize _ hi h, fun _ _ _ => execPadIn_oversize _ (State.withRegs_idle hi) h⟩
    · exact ⟨_, execPadIn_legal _ hi h, fun _ _ _ => execPadIn_legal _ (State.withRegs_idle hi) h⟩
  | encodeFrame =>
    exact ⟨_, execEncodeFrameIn_eq Config.hw hi, fun _ _ _ => execEncodeFrameIn_eq _ (State.withRegs_idle hi)⟩
  | decodeFrame =>
    exact ⟨_, execDecodeFrameIn_eq Config.hw hi, fun _ _ _ => execDecodeFrameIn_eq _ (State.withRegs_idle hi)⟩
  | correct =>
    exact ⟨_, execCorrectIn_eq Config.hw hi, fun _ _ _ => execCorrectIn_eq _ (State.withRegs_idle hi)⟩
  | extractPayload =>
    exact ⟨_, execExtractPayloadIn_eq Config.hw hi, fun _ _ _ => execExtractPayloadIn_eq _ (State.withRegs_idle hi)⟩

/-- `exec_withRegs` for a next state already at hand. -/
theorem exec_withRegs_of_next {i : Instr} {s t : State} (h : exec i s = .next t) (p : Power) (r e : Byte) :
    exec i (s.withRegs p r e) = .next (t.withRegsAfter i p r e) := by
  obtain ⟨u, hu, hregs⟩ := exec_withRegs i (idle_of_exec_next h)
  obtain rfl : u = t := Host.Outcome.next.inj (hu.symm.trans h)
  exact hregs p r e

/-- The registers a command leaves are those it leaves where the state's own stood before. -/
theorem withRegsAfter_self {i : Instr} {s t : State} (h : exec i s = .next t) :
    t.withRegsAfter i s.fcu.power s.fcu.res s.fcu.err = t :=
  Host.Outcome.next.inj ((exec_withRegs_of_next h s.fcu.power s.fcu.res s.fcu.err).symm.trans h)

/-- R21: only `powerAfter` says what stands in `RS.power` after a command. -/
theorem exec_power {i : Instr} {s t : State} (h : exec i s = .next t) :
    t.fcu.power = powerAfter i s.fcu.power :=
  (congrArg (·.fcu.power) (withRegsAfter_self h)).symm

/-- Settles O42: `powerAfter` keeps the record for every command but the three named. -/
theorem onlyLifecycleCommandsWritePower : Obligations.OnlyLifecycleCommandsWritePower := by
  intro i s t h hconf hon hoff
  rw [exec_power h]
  cases i with
  | configure => exact absurd rfl hconf
  | radioOn => exact absurd rfl hon
  | radioOff => exact absurd rfl hoff
  | _ => rfl

/-- Settles O45: `exec_withRegs` with `RES` and `ERR` as they stand. -/
theorem powerRecordSteersNothing : Obligations.PowerRecordSteersNothing := by
  intro i s p q hi
  obtain ⟨t, ht, hregs⟩ := exec_withRegs i hi
  refine ⟨t, _, ht, hregs p s.fcu.res s.fcu.err, ?_⟩
  exact congrArg (fun u : State => { u with fcu := { u.fcu with power := q } }) (withRegsAfter_self ht)

/-- Settles O46: `exec_withRegs` with `RS.power` as it stands; a command that completes overwrites both registers. -/
theorem earlierResultsHaveNoEffect : Obligations.EarlierResultsHaveNoEffect := by
  intro i s t r e h hdone
  have hsame : t.withRegsAfter i s.fcu.power r e = t := by
    rw [State.withRegsAfter, if_pos hdone, if_pos hdone, ← exec_power h]
    rfl
  exact (exec_withRegs_of_next h s.fcu.power r e).trans (congrArg _ hsame)

end Sys2Proof.Machine
end

