-- ==== Sys2Proof/Proofs/Memory.lean ====
section
/-! PROOFS. The buffer spaces and the outside (20_memory.md): which bytes of `MSG` a command reads (R51), which command
writes which space (R51 to R54), and what AIR's and the TA's decisions set (R67). -/

namespace Sys2Proof.Machine

/-! ## What AIR and the TA decide -/

/-- A step with an input to take is that input's effect. -/
theorem step_of_inputs {s : State} {x : Input} {rest : List Input} (h : s.inputs = x :: rest) :
    step s = stepInput x { s with inputs := rest } := by
  rw [step, h]

/-- Settles O53: no effect of the four inputs looks at `PHASE`. -/
theorem environmentInputsSetOneFieldOfTheAdapter : Obligations.EnvironmentInputsSetOneFieldOfTheAdapter := by
  intro s rest
  exact ⟨fun _ h => step_of_inputs h, fun _ h => step_of_inputs h, fun _ h => step_of_inputs h,
    fun _ h => step_of_inputs h⟩

/-! ## What PAD and TRANSMIT read of `MSG` -/

/-- A read depends on the bytes read alone. -/
theorem bytesAt_congr (c : Config) {m m' : Memory} (d n : Nat)
    (h : ∀ a, a < n → Memory.peek m a = Memory.peek m' a) : bytesAt c m d 0 n = bytesAt c m' d 0 n := by
  refine List.map_congr_left fun k hk => ?_
  rw [Nat.zero_add, h k (List.mem_range.mp hk)]

/-- The state with another Message. -/
def State.withMsg (s : State) (m : Memory) : State := { s with fcu := { s.fcu with msg := m } }

/-- A state that is idle is idle with another Message. -/
theorem State.withMsg_idle {s : State} (hi : s.fcu.phase = .idle) (m : Memory) : (s.withMsg m).fcu.phase = .idle := hi

/-- A read of the first `len` bytes of `MSG` does not see another Message that agrees there. -/
theorem bytesAt_withMsg (c : Config) {len : Nat} {s : State} {m : Memory} (d : Nat)
    (h : ∀ a, a < len → Memory.peek m a = Memory.peek s.fcu.msg a) :
    bytesAt c (s.withMsg m).fcu.msg d 0 len = bytesAt c s.fcu.msg d 0 len :=
  bytesAt_congr c d len h

/-- R141: the padded payload depends on the first `len` bytes of `MSG` alone. -/
theorem paddedPayload_withMsg (c : Config) {len : Nat} {s : State} {m : Memory}
    (h : ∀ a, a < len → Memory.peek m a = Memory.peek s.fcu.msg a) :
    paddedPayload c len (s.withMsg m) = paddedPayload c len s := by
  rw [paddedPayload, bytesAt_withMsg c _ h]
  rfl

/-- PAD of a legal length reads the first `len` bytes of `MSG` alone, and carries `MSG` along. -/
theorem execPadIn_withMsg (c : Config) {len : Nat} {s : State} {m : Memory} (hi : s.fcu.phase = .idle)
    (hlen : len ≤ c.maxPayload) (h : ∀ a, a < len → Memory.peek m a = Memory.peek s.fcu.msg a) :
    ∃ t, execPadIn c len s = .next t ∧ execPadIn c len (s.withMsg m) = .next (t.withMsg m) := by
  refine ⟨_, execPadIn_legal c hi hlen, (execPadIn_legal c (State.withMsg_idle hi m) hlen).trans ?_⟩
  rw [bytesAt_withMsg c _ h]
  rfl

/-- TRANSMIT of a legal length reads `MSG` through the padded payload alone, and carries `MSG` along. -/
theorem execTransmitIn_withMsg (c : Config) {len : Nat} {s : State} {m : Memory} (hi : s.fcu.phase = .idle)
    (hlen : len ≤ c.maxPayload) (h : ∀ a, a < len → Memory.peek m a = Memory.peek s.fcu.msg a) :
    ∃ t, execTransmitIn c len s = .next t ∧ execTransmitIn c len (s.withMsg m) = .next (t.withMsg m) := by
  refine ⟨_, execTransmitIn_legal c hi hlen, (execTransmitIn_legal c (State.withMsg_idle hi m) hlen).trans ?_⟩
  rw [paddedPayload_withMsg c h]
  rfl

/-- Settles O15: a legal length reads `MSG` through the padded payload alone, an oversize one not at all. -/
theorem messageBeyondLengthIsNotRead : Obligations.MessageBeyondLengthIsNotRead := by
  intro len i s m hcmd hi hmsg
  rcases Nat.lt_or_ge Config.hw.maxPayload len with hlen | hlen
  · obtain rfl | rfl := hcmd
    · exact ⟨_, execPadIn_oversize _ hi hlen, execPadIn_oversize _ (State.withMsg_idle hi m) hlen⟩
    · exact ⟨_, execTransmitIn_oversize _ hi hlen, execTransmitIn_oversize _ (State.withMsg_idle hi m) hlen⟩
  · obtain rfl | rfl := hcmd
    · exact execPadIn_withMsg _ hi hlen (hmsg hlen)
    · exact execTransmitIn_withMsg _ hi hlen (hmsg hlen)

/-! ## Which command writes which space -/

/-- The spaces a command may have written when it leaves `res` in `RES` (10_state.md R36): a TRY_RECEIVE with no flag set
found no frame (43_receive.md R187). -/
def spacesWritten : Instr → Byte → List Space
  | .pad _, _ => [.pad]
  | .transmit _, _ => [.pad, .frm]
  | .encodeFrame, _ => [.frm]
  | .decodeFrame, _ => [.frm]
  | .correct, _ => [.frm]
  | .extractPayload, _ => [.out]
  | .tryReceive, res => if res = 0x00#8 then [] else [.frm, .out]
  | _, _ => []

/-- No command writes `MSG` (R51). -/
theorem msg_notMem_spacesWritten (i : Instr) (res : Byte) : Space.msg ∉ spacesWritten i res := by
  cases i <;> simp [spacesWritten]

/-- The writers of `PAD` (R52). -/
theorem pad_mem_spacesWritten {i : Instr} {res : Byte} :
    Space.pad ∈ spacesWritten i res ↔ ∃ len, i = .pad len ∨ i = .transmit len := by
  cases i <;> simp [spacesWritten]

/-- The writers of `FRM` (R53). -/
theorem frm_mem_spacesWritten {i : Instr} {res : Byte} :
    Space.frm ∈ spacesWritten i res ↔ (∃ len, i = .transmit len) ∨ i = .encodeFrame ∨ i = .decodeFrame ∨
      i = .correct ∨ (i = .tryReceive ∧ res ≠ 0x00#8) := by
  cases i <;> simp [spacesWritten]

/-- The writers of `OUT` (R54). -/
theorem out_mem_spacesWritten {i : Instr} {res : Byte} :
    Space.out ∈ spacesWritten i res ↔ i = .extractPayload ∨ (i = .tryReceive ∧ res ≠ 0x00#8) := by
  cases i <;> simp [spacesWritten]

/-- Every space not listed holds in `g` what it holds in `f`. -/
def Fcu.WritesOnly (ws : List Space) (f g : Fcu) : Prop := ∀ sp, sp ∉ ws → g.space sp = f.space sp

/-- `Fcu.WritesOnly` space by space, where `MSG` is kept. -/
theorem Fcu.writesOnly_of {ws : List Space} {f g : Fcu} (hmsg : g.msg = f.msg)
    (hpad : .pad ∈ ws ∨ g.pad = f.pad) (hfrm : .frm ∈ ws ∨ g.frm = f.frm) (hout : .out ∈ ws ∨ g.out = f.out) :
    Fcu.WritesOnly ws f g := by
  intro sp hsp
  cases sp with
  | msg => exact hmsg
  | pad => exact hpad.resolve_left hsp
  | frm => exact hfrm.resolve_left hsp
  | out => exact hout.resolve_left hsp

/-- Where all four spaces are kept, any list will do. -/
theorem Fcu.writesOnly_of_same {ws : List Space} {f g : Fcu} (hmsg : g.msg = f.msg) (hpad : g.pad = f.pad)
    (hfrm : g.frm = f.frm) (hout : g.out = f.out) : Fcu.WritesOnly ws f g :=
  Fcu.writesOnly_of hmsg (.inr hpad) (.inr hfrm) (.inr hout)

/-- From a fetched frame on, TRY_RECEIVE sets a flag in `RES` and writes `FRM` and `OUT` only; `f` is the FCU before the
fetch. -/
theorem receiveFrame_writesOnly (c : Config) (n : Byte) {f : Fcu} {s : State} (hmsg : s.fcu.msg = f.msg)
    (hpad : s.fcu.pad = f.pad) :
    Fcu.WritesOnly (spacesWritten .tryReceive (receiveFrame c n s).fcu.res) f (receiveFrame c n s).fcu := by
  obtain ⟨-, hflag, -⟩ := receiveFrame_reports c n s
  have hres : (receiveFrame c n s).fcu.res ≠ 0x00#8 := fun h0 => by simp [h0] at hflag
  have hmsg' : (receiveFrame c n s).fcu.msg = f.msg := by rw [receiveFrame_eq]; exact hmsg
  have hpad' : (receiveFrame c n s).fcu.pad = f.pad := by rw [receiveFrame_eq]; exact hpad
  exact Fcu.writesOnly_of hmsg' (.inr hpad')
    (.inl (frm_mem_spacesWritten.mpr (by simp [hres]))) (.inl (out_mem_spacesWritten.mpr (by simp [hres])))

/-- Every command writes at most the spaces its row names. -/
theorem exec_writesOnly (i : Instr) {s : State} (hi : s.fcu.phase = .idle) :
    ∃ t, exec i s = .next t ∧ Fcu.WritesOnly (spacesWritten i t.fcu.res) s.fcu t.fcu := by
  cases i with
  | configure =>
    exact ⟨_, execConfigureIn_eq Config.hw hi, Fcu.writesOnly_of_same rfl rfl rfl rfl⟩
  | transmit len =>
    rcases Nat.lt_or_ge Config.hw.maxPayload len with h | h
    · exact ⟨_, execTransmitIn_oversize _ hi h, Fcu.writesOnly_of_same rfl rfl rfl rfl⟩
    · exact ⟨_, execTransmitIn_legal _ hi h,
        Fcu.writesOnly_of rfl (.inl (by simp [spacesWritten])) (.inl (by simp [spacesWritten])) (.inr rfl)⟩
  | tryReceive =>
    rcases execTryReceiveIn_spec Config.hw hi with ⟨ta, d, h⟩ | ⟨n, w, ta, d, -, h⟩
    · exact ⟨_, h, Fcu.writesOnly_of_same rfl rfl rfl rfl⟩
    · exact ⟨_, h, receiveFrame_writesOnly Config.hw n rfl rfl⟩
  | getRssi =>
    exact ⟨_, execGetRssiIn_eq Config.hw hi, Fcu.writesOnly_of_same rfl rfl rfl rfl⟩
  | radioOn =>
    exact ⟨_, execRadioOnIn_eq Config.hw hi, Fcu.writesOnly_of_same rfl rfl rfl rfl⟩
  | radioOff =>
    exact ⟨_, execRadioOffIn_eq Config.hw hi, Fcu.writesOnly_of_same rfl rfl rfl rfl⟩
  | pad len =>
    rcases Nat.lt_or_ge Config.hw.maxPayload len with h | h
    · exact ⟨_, execPadIn_oversize _ hi h, Fcu.writesOnly_of_same rfl rfl rfl rfl⟩
    · exact ⟨_, execPadIn_legal _ hi h, Fcu.writesOnly_of rfl (.inl (by simp [spacesWritten])) (.inr rfl) (.inr rfl)⟩
  | encodeFrame =>
    exact ⟨_, execEncodeFrameIn_eq Config.hw hi,
      Fcu.writesOnly_of rfl (.inr rfl) (.inl (by simp [spacesWritten])) (.inr rfl)⟩
  | decodeFrame =>
    exact ⟨_, execDecodeFrameIn_eq Config.hw hi,
      Fcu.writesOnly_of rfl (.inr rfl) (.inl (by simp [spacesWritten])) (.inr rfl)⟩
  | correct =>
    obtain ⟨ok, w, -, h⟩ := execCorrectIn_spec Config.hw hi
    exact ⟨_, h, Fcu.writesOnly_of rfl (.inr rfl) (.inl (by simp [spacesWritten])) (.inr rfl)⟩
  | extractPayload =>
    exact ⟨_, execExtractPayloadIn_eq Config.hw hi,
      Fcu.writesOnly_of rfl (.inr rfl) (.inr rfl) (.inl (by simp [spacesWritten]))⟩

/-- Settles O44: each clause is one column of `spacesWritten`. -/
theorem bufferWritersFollowTheAccessTable : Obligations.BufferWritersFollowTheAccessTable := by
  intro i s t ht
  obtain ⟨u, hu, hkeep⟩ := exec_writesOnly i (idle_of_exec_next ht)
  obtain rfl : u = t := Host.Outcome.next.inj (hu.symm.trans ht)
  refine ⟨hkeep .msg (msg_notMem_spacesWritten i _), fun hpad => hkeep .pad ?_,
    fun htx henc hdec hcor hrx => hkeep .frm ?_, fun hext hrx => hkeep .out ?_,
    fun hrx hres => ⟨hkeep .frm ?_, hkeep .out ?_⟩⟩
  · rw [pad_mem_spacesWritten]
    rintro ⟨len, h | h⟩
    · exact (hpad len).1 h
    · exact (hpad len).2 h
  · simp [frm_mem_spacesWritten, htx, henc, hdec, hcor, hrx]
  · simp [out_mem_spacesWritten, hext, hrx]
  · simp [hrx, hres, frm_mem_spacesWritten]
  · simp [hrx, hres, out_mem_spacesWritten]

end Sys2Proof.Machine
end

