-- ==== Sys2Proof/Proofs/Encoding.lean ====
section
/-! PROOFS. The command words that match none of the eleven patterns (30_encoding.md R87), and what such a word does
(R88). -/

namespace Sys2Proof

/-! ## The fields of a command word as numbers -/

theorem opField_toNat (w : CommandWord) : (opField w).toNat = w.toNat % 16 := by
  simp [opField]

theorem zeroField_toNat (w : CommandWord) : (zeroField w).toNat = w.toNat / 16 % 16 := by
  simp [zeroField, Nat.shiftRight_eq_div_pow]

theorem lenField_toNat (w : CommandWord) : (lenField w).toNat = w.toNat / 256 := by
  have hw : w.toNat < 65536 := w.isLt
  simp only [lenField, BitVec.extractLsb'_toNat, Nat.shiftRight_eq_div_pow]
  omega

/-! ## The words the decoder rejects -/

/-- The five reserved opcodes have no operation, and TRANSMIT and PAD are not among those without a length (R85). -/
theorem decodeOperandless_error_iff (op : BitVec 4) (e : DecodeError) :
    decodeOperandless op = .error e ↔
      e = .reservedOpcode ∧ (op.toNat ∈ [0x0, 0x7, 0xD, 0xE, 0xF] ∨ op = 0x2#4 ∨ op = 0x8#4) := by
  revert op
  cases e <;> decide

/-- TRANSMIT and PAD, the two operations with a length, by the number of the opcode. -/
theorem opcode_takesLength_iff (op : BitVec 4) : op.toNat ∈ [0x2, 0x8] ↔ op = 0x2#4 ∨ op = 0x8#4 := by
  revert op
  decide

/-- The decoder's tests in its own order (R90): `ZERO` first; then `LEN` and `OP`, unless the operation takes a
length. -/
theorem decode_error_iff (w : CommandWord) :
    (∃ e, decode w = .error e) ↔
      zeroField w ≠ 0x0#4 ∨
        ((opField w).toNat ∉ [0x2, 0x8] ∧
          (lenField w ≠ 0x00#8 ∨ (opField w).toNat ∈ [0x0, 0x7, 0xD, 0xE, 0xF])) := by
  rw [opcode_takesLength_iff, decode]
  split_ifs with hzero htransmit hpad hlen
  · simp [hzero]
  · simp [hzero, htransmit]
  · simp [hzero, hpad]
  · simp [htransmit, hpad, hlen]
  · simp [decodeOperandless_error_iff, hzero, htransmit, hpad, hlen]

end Sys2Proof

namespace Sys2Proof.Machine

/-- Settles O2: the decoder's tests, read on the word's number; a reserved opcode is neither 0x2 nor 0x8. -/
theorem wordIsIllegalExactlyWhenNoPatternMatches : Obligations.WordIsIllegalExactlyWhenNoPatternMatches := by
  intro w
  have hreserved : ∀ n ∈ [0x0, 0x7, 0xD, 0xE, 0xF], n ∉ [0x2, 0x8] := by decide
  have hop := hreserved (w.toNat % 16)
  simp only [decode_error_iff, ne_eq, ← BitVec.toNat_inj, opField_toNat, zeroField_toNat, lenField_toNat,
    BitVec.toNat_ofNat, Nat.zero_mod]
  tauto

/-! ## What an illegal word does -/

/-- R88: an illegal command word, issued while idle, completes with `RES` 0 and E_ILLEGAL_COMMAND. -/
theorem stepCommand_illegal {w : CommandWord} {e : DecodeError} {s : State} (hw : decode w = .error e)
    (hi : s.fcu.phase = .idle) : stepCommand w s = .next (finish 0x00#8 .illegalCommand s) := by
  rw [stepCommand, hw]
  exact whenIdle_idle hi _

/-- A value of `PHASE` is no call. -/
theorem callsMade_append_phase (es : List Event) (p : Phase) : callsMade (es ++ [.phase p]) = callsMade es := by
  simp [callsMade]

/-- Settles O6: the whole step is the one report `finish`, which adds no call. -/
theorem illegalWordOnlyReports : Obligations.IllegalWordOnlyReports := by
  intro s w rest e hin hw hi
  have hstep : step s = .next (finish 0x00#8 .illegalCommand { s with inputs := rest }) :=
    (step_of_inputs hin).trans (stepCommand_illegal hw hi)
  exact ⟨_, hstep, rfl, rfl, rfl, callsMade_append_phase s.trace .idle⟩

end Sys2Proof.Machine
end

