-- ==== Sys2Proof/Proofs/Adapters.lean ====
section
/-! PROOFS. The adapters and the block code (40_adapter_primitives.md): the machine's invariant over every step (R122),
the TA's own configuration (R111 to R116), and a link of two stations under the contracts R125 to R127. -/

namespace Sys2Proof.Machine

/-! ## Operations keep the buffers and the decode -/

/-- The part of the invariant that holds within a command too: the buffers and the last decode. -/
def State.CodecInv (c : Config) (s : State) : Prop := s.MemoryInv c ∧ s.BcaInv c

/-- The invariant between steps includes it. -/
theorem State.Inv.codecInv {c : Config} {s : State} (h : s.Inv c) : s.CodecInv c := by
  obtain ⟨hmem, -, -, hbca⟩ := h
  exact ⟨hmem, hbca⟩

/-- A value of `PHASE` is in neither. -/
theorem State.setPhase_codecInv {c : Config} {s : State} (p : Phase) (h : s.CodecInv c) :
    (s.setPhase p).CodecInv c := h

/-- So the issue of a command keeps both. -/
theorem issue_codecInv {c : Config} {s : State} (h : s.CodecInv c) : (issue s).CodecInv c := h

/-- `RS.rssi` is in neither. -/
theorem State.setRssi_codecInv {c : Config} {s : State} (v : Byte) (h : s.CodecInv c) :
    (s.setRssi v).CodecInv c := h

/-- A write inside its space keeps both: a write of `FRM` ends the decode, any other leaves what was decoded. -/
theorem memWrite_codecInv {c : Config} {sp : Space} {i : Nat} {v : List Byte} {s : State} (h : s.CodecInv c)
    (hn : i + v.length ≤ sp.size c) : (memWrite sp i v s).CodecInv c := by
  obtain ⟨hmem, hbca⟩ := h
  refine ⟨memWrite_memoryInv hmem hn, ?_⟩
  cases sp with
  | frm => exact nofun
  | msg => exact hbca
  | pad => exact hbca
  | out => exact hbca

/-- The pad of a legal length. -/
theorem padBuffer_codecInv {c : Config} {len : Nat} {s : State} (h : s.CodecInv c) (hlen : len ≤ c.maxPayload) :
    (padBuffer c len s).CodecInv c := by
  refine memWrite_codecInv h ?_
  simp [Space.size]
  omega

/-- The extraction. -/
theorem extractBuffer_codecInv {c : Config} {s : State} (h : s.CodecInv c) : (extractBuffer c s).CodecInv c :=
  memWrite_codecInv (sp := .out) h (by simp [Space.size])

/-- `BCA.encode`. -/
theorem bcaEncode_codecInv {c : Config} {s : State} (h : s.CodecInv c) : (bcaEncode c s).CodecInv c :=
  memWrite_codecInv (sp := .frm) h (by simp [Space.size])

/-- `BCA.decode` leaves a known syndrome and a full `FRM` (R122). -/
theorem bcaDecode_codecInv {c : Config} {s : State} (h : s.CodecInv c) : (bcaDecode c s).CodecInv c := by
  obtain ⟨hmem, -⟩ := memWrite_codecInv (sp := .frm) (i := 0)
    (v := c.decodeBuffer (bytesAt c s.fcu.frm s.draws 0 c.frameSize)) h (by simp [Space.size])
  refine ⟨hmem, fun _ => ⟨nofun, ?_⟩⟩
  rw [bcaDecode_eq]
  simpa using (Memory.holds_pokeAll s.fcu.frm (c.decodeBuffer (bytesAt c s.fcu.frm s.draws 0 c.frameSize))).filled

/-- `BCA.correct`, in or out of order. -/
theorem bcaCorrect_codecInv {c : Config} {s : State} (h : s.CodecInv c) : (bcaCorrect c s).2.CodecInv c := by
  obtain ⟨ok, w, hw, heq⟩ := bcaCorrect_spec c s
  rw [heq]
  exact memWrite_codecInv (sp := .frm) (v := w) h (by simp [Space.size, hw])

/-- `TA.receive`, whatever it finds. -/
theorem taReceive_codecInv {c : Config} {s : State} (h : s.CodecInv c) : (taReceive c s).2.CodecInv c := by
  rcases taReceive_spec c s with ⟨ta, d, heq⟩ | ⟨n, w, ta, d, hw, heq⟩ <;> rw [heq]
  · exact h
  · exact memWrite_codecInv (sp := .frm) (v := w) h (by simp [Space.size, hw])

/-- The end of a decode's freshness. -/
theorem endDecode_codecInv {c : Config} {s : State} (h : s.CodecInv c) : s.endDecode.CodecInv c := ⟨h.1, nofun⟩

/-- A read of a truth value that may be unknown. -/
theorem readBool_codecInv {c : Config} {v : Val Bool} {s : State} (h : s.CodecInv c) :
    (s.readBool c v).2.CodecInv c := by
  rw [readBool_eq]
  exact h

/-- A read of a byte that may be unknown. -/
theorem readByte_codecInv {c : Config} {v : Val Byte} {s : State} (h : s.CodecInv c) :
    (s.readByte c v).2.CodecInv c := by
  rw [readByte_eq]
  exact h

/-- `BCA.syndromeNonZero`. -/
theorem bcaSyndromeNonZero_codecInv {c : Config} {s : State} (h : s.CodecInv c) :
    (bcaSyndromeNonZero c s).2.CodecInv c :=
  readBool_codecInv (s := s.emit .bcaSyndromeNonZero) h

/-- `TA.lastSignalStrength`. -/
theorem taLastSignalStrength_codecInv {c : Config} {s : State} (h : s.CodecInv c) :
    (taLastSignalStrength c s).2.CodecInv c :=
  readByte_codecInv (s := s.emit .taLastSignalStrength) h

/-- The probe of the TA (R113). -/
theorem taInit_codecInv {c : Config} {n : Nat} {s : State} (h : s.CodecInv c) : (taInit c n s).2.CodecInv c :=
  readBool_codecInv (s := s.emit (.taInitialize n)) h

/-- The frequency setting of the TA (R114). -/
theorem taSetFrequency_codecInv {c : Config} {n : Nat} {s : State} (h : s.CodecInv c) :
    (taSetFrequency c n s).2.CodecInv c :=
  readBool_codecInv (s := s.emit (.taSetFrequency n)) h

/-- The correction within a receive, where the syndrome calls for one. -/
theorem checkAndCorrect_codecInv {c : Config} {f : Status} {s : State} (h : s.CodecInv c) :
    (checkAndCorrect c f s).2.CodecInv c := by
  have hsyn := bcaSyndromeNonZero_codecInv h
  rw [checkAndCorrect]
  rcases hu : bcaSyndromeNonZero c s with ⟨_ | _, u⟩ <;> rw [hu] at hsyn
  · exact hsyn
  · exact bcaCorrect_codecInv (State.setPhase_codecInv .correcting hsyn)

/-! ## Commands keep the invariant -/

/-- A command that completes leaves `PHASE` idle and a code that a rule writes in `ERR`. -/
theorem finish_inv {c : Config} {s : State} {res : Byte} {e : ErrorCode} (h : s.CodecInv c)
    (he : e ≠ .physicalLink) : (finish res e s).Inv c := by
  refine ⟨h.1, .inl rfl, ?_, h.2⟩
  show e.code.toNat ≤ 3
  cases e with
  | physicalLink => exact absurd rfl he
  | _ => decide

/-- A command that answers a next state was idle and had its effect. -/
theorem whenIdle_inv {c : Config} {k : State → State} {s t : State} (ht : whenIdle s k = .next t)
    (h : (k s).Inv c) : t.Inv c := by
  obtain ⟨-, rfl⟩ := whenIdle_next.mp ht
  exact h

/-- From a fetched frame on, TRY_RECEIVE. -/
theorem receiveFrame_inv {c : Config} {n : Byte} {s : State} (h : s.CodecInv c) : (receiveFrame c n s).Inv c := by
  have hdec := bcaDecode_codecInv
    (State.setRssi_codecInv (taLastSignalStrength c s).1 (taLastSignalStrength_codecInv h))
  have hcheck := checkAndCorrect_codecInv (f := { Status.none with mismatch := sizeMismatch c.frameSize n })
    (State.setPhase_codecInv .decoded hdec)
  exact finish_inv (endDecode_codecInv (extractBuffer_codecInv hcheck)) nofun

/-- TRY_RECEIVE, whatever `TA.receive` finds. -/
theorem execTryReceiveIn_inv {c : Config} {s t : State} (h : s.CodecInv c) (ht : execTryReceiveIn c s = .next t) :
    t.Inv c := by
  obtain ⟨hi, -⟩ := whenIdle_next.mp ht
  have hrx := taReceive_codecInv h
  rcases hu : taReceive c s with ⟨_ | n, u⟩ <;> rw [hu] at hrx
  · rw [execTryReceiveIn_of_taReceive_none c hi hu] at ht
    obtain rfl := Host.Outcome.next.inj ht
    exact finish_inv (State.setPhase_codecInv .noData (State.setPhase_codecInv .polled hrx)) nofun
  · rw [execTryReceiveIn_of_taReceive_some c hi hu] at ht
    obtain rfl := Host.Outcome.next.inj ht
    exact receiveFrame_inv (State.setPhase_codecInv .polled hrx)

/-- The end of a TRANSMIT: it completes, or it hangs in `Busy` with the wait as its last call (R166). -/
theorem sendAndWait_inv {c : Config} {s : State} (h : s.CodecInv c) (hbusy : s.fcu.phase = .busy) (herr : s.ErrInv) :
    (sendAndWait c s).Inv c := by
  simp only [sendAndWait, taWaitSendComplete_eq]
  split
  · exact finish_inv (s := { taSend c s with ta := _, trace := _, draws := _ }) h nofun
  · exact ⟨h.1, .inr ⟨hbusy, List.getLast?_concat⟩, herr, h.2⟩

/-- TRANSMIT: refused, completed or hung. -/
theorem execTransmitIn_inv {c : Config} {len : Nat} {s t : State} (h : s.CodecInv c) (herr : s.ErrInv)
    (ht : execTransmitIn c len s = .next t) : t.Inv c := by
  refine whenIdle_inv ht ?_
  by_cases hlen : c.maxPayload < len
  · rw [payloadTooLarge, decide_eq_true hlen, if_pos rfl]
    exact finish_inv (issue_codecInv h) nofun
  · rw [payloadTooLarge, decide_eq_false hlen, if_neg nofun]
    exact sendAndWait_inv (bcaEncode_codecInv (padBuffer_codecInv (issue_codecInv h) (not_lt.mp hlen)))
      rfl herr

/-- PAD: refused or completed. -/
theorem execPadIn_inv {c : Config} {len : Nat} {s t : State} (h : s.CodecInv c)
    (ht : execPadIn c len s = .next t) : t.Inv c := by
  refine whenIdle_inv ht ?_
  by_cases hlen : c.maxPayload < len
  · rw [payloadTooLarge, decide_eq_true hlen, if_pos rfl]
    exact finish_inv (issue_codecInv h) nofun
  · rw [payloadTooLarge, decide_eq_false hlen, if_neg nofun]
    exact finish_inv (padBuffer_codecInv (issue_codecInv h) (not_lt.mp hlen)) nofun

/-- CONFIGURE writes no buffer. -/
theorem execConfigureIn_inv {c : Config} {s t : State} (h : s.CodecInv c) (ht : execConfigureIn c s = .next t) :
    t.Inv c := by
  have he : configError (taInit c c.frameSize (powerCycle c (issue s))).1
      (taSetFrequency c c.freqMhz (taInit c c.frameSize (powerCycle c (issue s))).2).1 ≠ .physicalLink := by
    rw [configError]
    split_ifs <;> nofun
  have hinit := taInit_codecInv (n := c.frameSize) (s := powerCycle c (issue s)) h
  exact whenIdle_inv ht (finish_inv (s := taSetTransmitPower c.txPowerMax (taSetModemProfile c.modemProfile _))
    (taSetFrequency_codecInv (n := c.freqMhz) hinit) he)

/-- Every command keeps the invariant. -/
theorem exec_inv {i : Instr} {s t : State} (h : s.Inv Config.hw) (ht : exec i s = .next t) : t.Inv Config.hw := by
  have hs := h.codecInv
  obtain ⟨-, -, herr, -⟩ := h
  have hissue := issue_codecInv hs
  cases i with
  | configure => exact execConfigureIn_inv hs ht
  | transmit len => exact execTransmitIn_inv hs herr ht
  | tryReceive => exact execTryReceiveIn_inv hs ht
  | getRssi =>
    exact whenIdle_inv (show execGetRssiIn _ s = .next t from ht) (finish_inv (readByte_codecInv hissue) nofun)
  | radioOn =>
    exact whenIdle_inv (show execRadioOnIn Config.hw s = .next t from ht)
      (finish_inv (s := (taPowerOn (issue s)).setPower .on) hs nofun)
  | radioOff =>
    exact whenIdle_inv (show execRadioOffIn Config.hw s = .next t from ht)
      (finish_inv (s := (taPowerOff (issue s)).setPower .off) hs nofun)
  | pad len => exact execPadIn_inv hs ht
  | encodeFrame =>
    exact whenIdle_inv (show execEncodeFrameIn _ s = .next t from ht) (finish_inv (bcaEncode_codecInv hissue) nofun)
  | decodeFrame =>
    exact whenIdle_inv (show execDecodeFrameIn _ s = .next t from ht)
      (finish_inv (bcaSyndromeNonZero_codecInv (bcaDecode_codecInv hissue)) nofun)
  | correct =>
    exact whenIdle_inv (show execCorrectIn _ s = .next t from ht) (finish_inv (bcaCorrect_codecInv hissue) nofun)
  | extractPayload =>
    exact whenIdle_inv (show execExtractPayloadIn _ s = .next t from ht)
      (finish_inv (extractBuffer_codecInv hissue) nofun)

/-! ## Steps keep the invariant -/

/-- A HOST write of one byte. -/
theorem hostWriteIn_inv {c : Config} {sp : Space} {i : Nat} {b : Byte} {s t : State} (h : s.Inv c)
    (ht : hostWriteIn c sp i b s = .next t) : t.Inv c := by
  rw [hostWriteIn] at ht
  split_ifs at ht with hi hsize
  obtain rfl := Host.Outcome.next.inj ht
  obtain ⟨hmem, hbca⟩ := memWrite_codecInv (v := [b]) h.codecInv hsize
  obtain ⟨-, hphase, herr, -⟩ := h
  refine ⟨hmem, ?_, ?_, hbca⟩
  · cases sp <;> exact hphase
  · cases sp <;> exact herr

/-- Reset establishes the invariant from any state. -/
theorem resetMachine_inv (c : Config) (s : State) : (resetMachine s).Inv c := by
  refine ⟨fun sp => ?_, .inl rfl, show (0x00#8 : Byte).toNat ≤ 3 by decide, nofun⟩
  cases sp <;> exact ⟨List.Pairwise.nil, nofun⟩

/-- A command word issued, legal or illegal. -/
theorem stepCommand_inv {w : CommandWord} {s t : State} (h : s.Inv Config.hw) (ht : stepCommand w s = .next t) :
    t.Inv Config.hw := by
  rw [stepCommand] at ht
  split at ht
  · exact exec_inv h ht
  · exact whenIdle_inv ht (finish_inv h.codecInv nofun)

/-- One input from outside; the environment's four leave the FCU, the BCA and the trace as they are. -/
theorem stepInput_inv {x : Input} {s t : State} (h : s.Inv Config.hw) (ht : stepInput x s = .next t) :
    t.Inv Config.hw := by
  cases x with
  | command w => exact stepCommand_inv h ht
  | writeMsg i b => exact hostWriteIn_inv h ht
  | writeOut i b => exact hostWriteIn_inv h ht
  | writeFrm i b => exact hostWriteIn_inv h ht
  | reset => exact Host.Outcome.next.inj ht ▸ resetMachine_inv _ s
  | air _ | probe _ | frequency _ | confirm _ =>
    obtain rfl := Host.Outcome.next.inj ht
    exact h

/-- Settles O12: with no input a step changes nothing; an input's effect keeps the invariant, which does not mention the
inputs left. -/
theorem stepKeepsInvariant : Obligations.StepKeepsInvariant := by
  intro s t h ht
  cases hin : s.inputs with
  | nil =>
    rw [step, hin] at ht
    simp only [noInput] at ht
    split_ifs at ht
    exact Host.Outcome.next.inj ht ▸ h
  | cons x rest =>
    rw [step_of_inputs hin] at ht
    exact stepInput_inv (s := { s with inputs := rest }) h ht

/-! ## The TA's own configuration -/

/-- Settles O38: the three commands' own equations; the two answers are the TA's where known, else draws. -/
theorem lifecycleCommandsWriteTheAdapterConfiguration : Obligations.LifecycleCommandsWriteTheAdapterConfiguration := by
  intro s hi
  refine ⟨⟨probeOk Config.hw s, freqOk Config.hw s, _, fun b hb => ?_, fun b hb => ?_,
    execConfigureIn_eq Config.hw hi, rfl⟩, ⟨_, execRadioOnIn_eq Config.hw hi, rfl⟩,
    ⟨_, execRadioOffIn_eq Config.hw hi, rfl⟩⟩
  · rw [probeOk, hb, boolOf_known]
  · rw [freqOk, hb, boolOf_known]

/-! ## The contracts of the block code -/

/-- Two buffers of one length that differ in no position are the same. -/
theorem eq_of_changedPositions_eq_zero {f g : List Byte} (hlen : f.length = g.length)
    (h : changedPositions f g = 0) : f = g := by
  refine List.ext_getElem hlen fun i hf hg => ?_
  have hmem : (f[i], g[i]) ∈ f.zip g := by
    rw [← List.getElem_zip (h := by simp [hf, hg])]
    exact List.getElem_mem _
  simpa using List.countP_eq_zero.mp h _ hmem

/-- R125: different payloads have different encodings. -/
theorem encode_injective {c : Config} (h : c.RoundTrip) {x y : List Byte} (hx : x.length = c.maxPayload)
    (hy : y.length = c.maxPayload) (heq : c.encode x = c.encode y) : x = y := by
  rw [← (h x hx).1, heq, (h y hy).1]

/-- R125, R126: the encodings of different payloads differ in more than `T_CORRECT` positions: otherwise the one, as a
corrupted form of the other, would have a nonzero syndrome. -/
theorem tCorrect_lt_changedPositions {c : Config} (hround : c.RoundTrip) (hcor : c.CorrectsWithinCapacity)
    {x y : List Byte} (hx : x.length = c.maxPayload) (hy : y.length = c.maxPayload) (hne : x ≠ y) :
    c.tCorrect < changedPositions (c.encode y) (c.encode x) := by
  by_contra hfew
  have hpos : changedPositions (c.encode y) (c.encode x) ≠ 0 := fun h0 =>
    hne (encode_injective hround hx hy (eq_of_changedPositions_eq_zero (by simp) h0).symm)
  obtain ⟨hsyn, -⟩ := hcor x (c.encode y) hx (by simp) (Nat.one_le_iff_ne_zero.mpr hpos) (not_lt.mp hfew)
  obtain ⟨-, hzero⟩ := hround y hy
  exact Bool.false_ne_true (hzero.symm.trans hsyn)

/-- Settles O50: two different payloads exist, and the encoding of the one goes undetected as a corruption
of the other's. -/
theorem beyondCapacityPropertyContradictsTheContracts :
    Obligations.BeyondCapacityPropertyContradictsTheContracts := by
  intro c hwf hround hcor hbeyond
  obtain ⟨hpayload, -⟩ := hwf
  have hx : (List.replicate c.maxPayload 0x00#8).length = c.maxPayload := List.length_replicate
  have hy : (List.replicate c.maxPayload 0x01#8).length = c.maxPayload := List.length_replicate
  have hne : List.replicate c.maxPayload 0x00#8 ≠ List.replicate c.maxPayload 0x01#8 := by
    have hpos : c.maxPayload ≠ 0 := by omega
    exact (List.replicate_right_injective hpos).ne (by decide)
  obtain ⟨hsyn, -⟩ := hbeyond _ _ hx (by simp) (tCorrect_lt_changedPositions hround hcor hx hy hne)
  obtain ⟨-, hzero⟩ := hround _ hy
  exact Bool.false_ne_true (hzero.symm.trans hsyn)

/-! ## A link of two stations -/

/-- A padded Message of legal length is a payload (R141). -/
theorem length_paddedMessage {c : Config} {m : List Byte} (hlen : m.length ≤ c.maxPayload) :
    (m ++ List.replicate (c.maxPayload - m.length) 0x00#8).length = c.maxPayload := by
  rw [List.length_append, List.length_replicate]
  omega

/-- R161: a TRANSMIT of a Message the station holds, with a TA that confirms, completes and hands over the encoding of
the padded Message. -/
theorem execTransmitIn_sends {c : Config} {m : List Byte} {s : State} (hlen : m.length ≤ c.maxPayload)
    (hi : s.fcu.phase = .idle) (hconf : s.ta.confirmAnswer = .known true) (hmsg : Memory.Holds s.fcu.msg m) :
    ∃ t, execTransmitIn c m.length s = .next t ∧ t.fcu.phase = .idle ∧
      .taSend (c.encode (m ++ List.replicate (c.maxPayload - m.length) 0x00#8)) c.frameSize ∈
        t.trace.drop s.trace.length := by
  have hpad : paddedPayload c m.length s = m ++ List.replicate (c.maxPayload - m.length) 0x00#8 := by
    rw [paddedPayload, bytesAt_eq_of_holds c _ hmsg]
  have hok : transmitConfirmed c s = true := by rw [transmitConfirmed, hconf, boolOf_known]
  refine ⟨_, execTransmitIn_legal c hi hlen, if_pos hok, ?_⟩
  simp [hpad]

/-- R117: a fetch of a frame reported with size `FRAME_SIZE` gives exactly its bytes. -/
theorem fetched_fullFrame {c : Config} (hsize : c.frameSize ≤ 255) (d : Nat) {g : List Byte} (r : Byte)
    (hg : g.length = c.frameSize) : fetched c d ⟨g, BitVec.ofNat 8 c.frameSize, r⟩ = g := by
  have hmod : g.length % 256 = g.length := Nat.mod_eq_of_lt (by omega)
  refine List.ext_getElem (by simp [hg]) fun i _ hi => ?_
  simp [fetched, ← hg, hmod, hi]

/-- R179: a frame reported with size `FRAME_SIZE` is no mismatch. -/
theorem sizeMismatch_frameSize {c : Config} (hsize : c.frameSize ≤ 255) :
    sizeMismatch c.frameSize (BitVec.ofNat 8 c.frameSize) = false := by
  have hmod : c.frameSize % 256 = c.frameSize := Nat.mod_eq_of_lt (by omega)
  simp [sizeMismatch, hmod]

/-- The symbols a receive of the frame `g` delivers where its correction, if it needs one, succeeds (R176). -/
def deliveredSymbols (c : Config) (g : List Byte) : List Byte :=
  if c.syn g then c.correctBuffer (c.decodeBuffer g) else c.decodeBuffer g

/-- `FRM` at the end of a receive that did not fail. -/
theorem receivedFrm_holds {c : Config} {s : State}
    (hok : c.syn (receivedBlock c s) = true → c.corOk (c.decodeBuffer (receivedBlock c s)) = true) :
    Memory.Holds (receivedFrm c s) (deliveredSymbols c (receivedBlock c s)) := by
  unfold receivedFrm frmAfter deliveredSymbols
  split_ifs with hsyn
  · rw [receivedRepair, if_pos (hok hsyn)]
    exact Memory.holds_pokeAll _ _
  · exact Memory.holds_pokeAll _ _

/-- The FCU `f` after a receive of the frame `g` with strength `r`, reported with size `FRAME_SIZE` (R176): the flags by
what the code says of `g`, and in `OUT` the payload, unless the correction failed. -/
structure Fcu.Received (c : Config) (g : List Byte) (r : Byte) (f : Fcu) : Prop where
  rssi : f.rssi = .known r
  res : f.res = Status.byte ⟨true, c.syn g, c.syn g && !c.corOk (c.decodeBuffer g), false⟩
  out : (c.syn g = true → c.corOk (c.decodeBuffer g) = true) →
    Memory.Holds f.out ((deliveredSymbols c g).take c.maxPayload)

/-- From a fetch of the frame `g` on, TRY_RECEIVE receives it. -/
theorem receiveFrame_received {c : Config} (hpayload : c.maxPayload < c.frameSize) (hsize : c.frameSize ≤ 255)
    {g : List Byte} {r : Byte} {s : State} (hg : g.length = c.frameSize) (hfrm : Memory.Holds s.fcu.frm g)
    (hrssi : s.ta.lastRssi = .known r) :
    (receiveFrame c (BitVec.ofNat 8 c.frameSize) s).fcu.Received c g r := by
  have hblock : receivedBlock c s = g := by
    rw [receivedBlock, ← hg]
    exact bytesAt_eq_of_holds c _ hfrm
  rw [receiveFrame_eq]
  refine ⟨?_, ?_, fun hok => ?_⟩
  · simp [hrssi]
  · simp only [hblock, sizeMismatch_frameSize hsize]
  · have hdelivered := receivedFrm_holds (c := c) (s := s) (by rwa [hblock])
    have hlen : (deliveredSymbols c (receivedBlock c s)).length = c.frameSize := by
      unfold deliveredSymbols
      split_ifs <;> simp
    show Memory.Holds (Memory.pokeAll s.fcu.out 0 (bytesAt c (receivedFrm c s) _ 0 c.maxPayload)) _
    rw [bytesAt_take_of_holds c _ c.maxPayload hdelivered (by omega), hblock]
    exact Memory.holds_pokeAll _ _

/-- R176: TRY_RECEIVE of a pending frame reported with size `FRAME_SIZE`. -/
theorem execTryReceiveIn_received {c : Config} (hwf : c.Wf) {g : List Byte} {r : Byte} {s : State}
    (hg : g.length = c.frameSize) (hi : s.fcu.phase = .idle)
    (hp : s.ta.pending = .known (some ⟨g, BitVec.ofNat 8 c.frameSize, r⟩)) :
    ∃ t, execTryReceiveIn c s = .next t ∧ t.fcu.Received c g r := by
  obtain ⟨-, -, hpayload, hsize, -⟩ := hwf
  refine ⟨_, execTryReceiveIn_some c hi hp, receiveFrame_received hpayload hsize hg ?_ rfl⟩
  simp only [fetched_fullFrame hsize _ r hg]
  exact Memory.holds_pokeAll _ _

/-- A frame with a zero syndrome is received with the flag `R` alone and its decoded payload. -/
theorem Fcu.Received.clean {c : Config} {g : List Byte} {r : Byte} {f : Fcu} (h : f.Received c g r)
    (hsyn : c.syn g = false) :
    f.res = 0x01#8 ∧ Memory.Holds f.out ((c.decodeBuffer g).take c.maxPayload) := by
  have hout := h.out
  rw [deliveredSymbols, hsyn] at hout
  refine ⟨?_, hout nofun⟩
  rw [h.res, hsyn, Bool.false_and]
  rfl

/-- A frame that needs a correction and gets it is received with the flags `C` and `R` and its corrected payload. -/
theorem Fcu.Received.corrected {c : Config} {g : List Byte} {r : Byte} {f : Fcu} (h : f.Received c g r)
    (hsyn : c.syn g = true) (hok : c.corOk (c.decodeBuffer g) = true) :
    f.res = 0x03#8 ∧ Memory.Holds f.out ((c.correctBuffer (c.decodeBuffer g)).take c.maxPayload) := by
  have hout := h.out
  rw [deliveredSymbols, if_pos hsyn] at hout
  refine ⟨?_, hout fun _ => hok⟩
  rw [h.res, hsyn, hok]
  rfl

/-- A frame whose correction fails is received with the flags `U`, `C` and `R`. -/
theorem Fcu.Received.uncorrectable {c : Config} {g : List Byte} {r : Byte} {f : Fcu} (h : f.Received c g r)
    (hsyn : c.syn g = true) (hok : c.corOk (c.decodeBuffer g) = false) : f.res = 0x07#8 := by
  rw [h.res, hsyn, hok]
  rfl

/-- Settles O47: by the contract the sent frame has a zero syndrome and decodes to the padded Message. -/
theorem cleanLinkDeliversTheMessage : Obligations.CleanLinkDeliversTheMessage := by
  intro c m s hwf hround hlen hi hconf hmsg
  obtain ⟨t, ht, hdone, hsent⟩ := execTransmitIn_sends hlen hi hconf hmsg
  refine ⟨t, _, ht, hdone, length_encode c _, hsent, fun r s2 hi2 hp => ?_⟩
  obtain ⟨t2, ht2, hrec⟩ := execTryReceiveIn_received hwf (length_encode c _) hi2 hp
  obtain ⟨hpayload, hsyn⟩ := hround _ (length_paddedMessage hlen)
  obtain ⟨hres, hout⟩ := hrec.clean hsyn
  exact ⟨t2, ht2, hres, hrec.rssi, hpayload ▸ hout⟩

/-- Settles O48: by the contract the changed frame has a nonzero syndrome and is corrected to the padded Message. -/
theorem corruptedLinkWithinCapacityDeliversTheMessage :
    Obligations.CorruptedLinkWithinCapacityDeliversTheMessage := by
  intro c m s hwf hcor hlen hi hconf hmsg
  obtain ⟨t, ht, hdone, hsent⟩ := execTransmitIn_sends hlen hi hconf hmsg
  refine ⟨t, _, ht, hdone, length_encode c _, hsent, fun g r s2 hg hsome hfew hi2 hp => ?_⟩
  obtain ⟨t2, ht2, hrec⟩ := execTryReceiveIn_received hwf hg hi2 hp
  obtain ⟨hsyn, hok, hpayload⟩ := hcor _ g (length_paddedMessage hlen) hg hsome hfew
  obtain ⟨hres, hout⟩ := hrec.corrected hsyn hok
  exact ⟨t2, ht2, hres, hrec.rssi, hpayload ▸ hout⟩

/-- Settles O49: the hypothesis says that the changed frame has a nonzero syndrome and is not corrected. -/
theorem beyondCapacityFrameIsFlagged : Obligations.BeyondCapacityFrameIsFlagged := by
  intro c x g r s hwf hbeyond hx hg hmany hi hp
  obtain ⟨t, ht, hrec⟩ := execTryReceiveIn_received hwf hg hi hp
  obtain ⟨hsyn, hok⟩ := hbeyond x g hx hg hmany
  exact ⟨t, ht, hrec.uncorrectable hsyn hok, hrec.rssi⟩

end Sys2Proof.Machine
end

