-- ==== Sys2Proof/Proofs/FrameCodec.lean ====
section
/-! PROOFS. The Frame Codec micro-operations PAD, ENCODE_FRAME, DECODE_FRAME, CORRECT, EXTRACT_PAYLOAD
(41_frame_codec.md R141 to R147). -/

namespace Sys2Proof.Machine

/-! ## Spaces that hold given bytes, and one-bit results -/

/-- A read of all the bytes a space is known to hold. -/
theorem bytesAt_eq_of_holds_length (c : Config) {m : Memory} (d : Nat) {n : Nat} {xs : List Byte}
    (hn : xs.length = n) (h : Memory.Holds m xs) : bytesAt c m d 0 n = xs :=
  hn ▸ bytesAt_eq_of_holds c d h

/-- Writing bytes that stand there already changes no byte. -/
theorem Memory.peek_pokeAll_of_holds {m : Memory} {xs : List Byte} (h : Memory.Holds m xs) (a : Nat) :
    Memory.peek (Memory.pokeAll m 0 xs) a = Memory.peek m a := by
  rw [Memory.peek_pokeAll_zero]
  split_ifs with ha
  · exact (h a ha).symm
  · rfl

/-- A write of `n` bytes from index 0 leaves the first `n` bytes specified. -/
theorem Memory.filled_pokeAll (m : Memory) {n : Nat} {xs : List Byte} (hn : xs.length = n) :
    Memory.Filled (Memory.pokeAll m 0 xs) n :=
  hn ▸ (Memory.holds_pokeAll m xs).filled

/-- A one-bit result as `RES` shows it (10_state.md R30). -/
theorem flagByte_eq_ite (b : Bool) : flagByte b = if b = true then 0x01#8 else 0x00#8 := by
  cases b <;> rfl

/-! ## PAD -/

/-- Settles O13: the two paths of R141; the bytes read from `MSG` are those of `bytesAt`. -/
theorem padCopiesZeroFillsOrRefuses : Obligations.PadCopiesZeroFillsOrRefuses := by
  intro len s hi
  refine ⟨fun hlen => ?_, fun hlen => ?_⟩
  · have hpayload := (length_paddedPayload Config.hw s hlen).le
    exact ⟨_, _, bytesAt_readsAs Config.hw s.fcu.msg s.draws len, execPadIn_legal Config.hw hi hlen,
      Memory.holds_pokeAll _ _, Memory.sameFrom_pokeAll _ _ _ hpayload, by simp only [hi], rfl, rfl⟩
  · exact ⟨_, execPadIn_oversize Config.hw hi hlen, by simp only [hi], rfl, rfl⟩

/-- A list of `l` elements padded to `n`, cut anywhere in its padding and padded again, is the same list. -/
theorem take_append_replicate_repad {α : Type} (z : α) {xs : List α} {l k n : Nat} (hl : xs.length = l)
    (hk : l ≤ k) (hn : k ≤ n) :
    (xs ++ List.replicate (n - l) z).take k ++ List.replicate (n - k) z = xs ++ List.replicate (n - l) z := by
  subst hl
  have hcut : min (k - xs.length) (n - xs.length) + (n - k) = n - xs.length := by omega
  rw [List.take_append, List.take_of_length_le hk, List.take_replicate, List.append_assoc,
    List.replicate_append_replicate, hcut]

/-- R146: a Message that is itself a padded payload pads to itself, at any length that reaches its padding. -/
theorem paddedPayload_of_padded {c : Config} {len k : Nat} {s u : State} (hlen : len ≤ k) (hk : k ≤ c.maxPayload)
    (h : Memory.Holds u.fcu.msg (paddedPayload c len s)) : paddedPayload c k u = paddedPayload c len s := by
  have hread : bytesAt c u.fcu.msg u.draws 0 k = (paddedPayload c len s).take k :=
    bytesAt_take_of_holds c _ k h (by rwa [length_paddedPayload c s (hlen.trans hk)])
  rw [paddedPayload, hread]
  exact take_append_replicate_repad _ (length_bytesAt _ _ _ _ _) hlen hk

/-- R141: PAD of a legal length writes the padded payload to `PAD` and completes. -/
theorem exec_pad_writes {len : Nat} {s : State} (hi : s.fcu.phase = .idle) (hlen : len ≤ Config.hw.maxPayload) :
    ∃ t, exec (.pad len) s = .next t ∧ t.fcu.phase = .idle ∧
      t.fcu.pad = Memory.pokeAll s.fcu.pad 0 (paddedPayload Config.hw len s) :=
  ⟨_, execPadIn_legal Config.hw hi hlen, rfl, rfl⟩

/-- Settles O14: the second PAD writes the payload that the first one left in `PAD`. -/
theorem repaddingIsIdempotent : Obligations.RepaddingIsIdempotent := by
  intro len k s hi hlen hk
  obtain ⟨t, ht, hti, htpad⟩ := exec_pad_writes hi (hlen.trans hk)
  have hpad : Memory.Holds t.fcu.pad (paddedPayload Config.hw len s) := by
    rw [htpad]
    exact Memory.holds_pokeAll _ _
  obtain ⟨u, hu, -, hupad⟩ := exec_pad_writes (State.withMsg_idle hti t.fcu.pad) hk
  rw [paddedPayload_of_padded hlen hk hpad] at hupad
  exact ⟨t, ht, u, hu, fun a => hupad ▸ Memory.peek_pokeAll_of_holds hpad a⟩

/-! ## ENCODE_FRAME -/

/-- Settles O16: the bytes read from `PAD` are those of `bytesAt`. -/
theorem encodeFrameFillsFrmFromPad : Obligations.EncodeFrameFillsFrmFromPad := by
  intro s hi
  exact ⟨_, _, bytesAt_readsAs Config.hw s.fcu.pad s.draws _, execEncodeFrameIn_eq Config.hw hi,
    Memory.holds_pokeAll _ _, Memory.sameFrom_pokeAll _ _ _ (length_encode _ _).le, by simp only [hi], rfl, rfl⟩

/-- R142: where `PAD` holds a whole payload, `FRM` ends with its encoding. -/
theorem exec_encodeFrame_of_holds {x : List Byte} {s : State} (hi : s.fcu.phase = .idle)
    (hx : x.length = Config.hw.maxPayload) (hpad : Memory.Holds s.fcu.pad x) :
    ∃ t, exec .encodeFrame s = .next t ∧ Memory.Holds t.fcu.frm (Config.hw.encode x) := by
  refine ⟨_, execEncodeFrameIn_eq Config.hw hi, ?_⟩
  rw [bytesAt_eq_of_holds_length _ _ hx hpad]
  exact Memory.holds_pokeAll _ _

/-- Settles O17: both states end with the encoding of the one payload in `FRM`. -/
theorem encodeFrameDependsOnPadAlone : Obligations.EncodeFrameDependsOnPadAlone := by
  intro x s s' hx hi hi' hpad hpad'
  obtain ⟨t, ht, hfrm⟩ := exec_encodeFrame_of_holds hi hx hpad
  obtain ⟨t', ht', hfrm'⟩ := exec_encodeFrame_of_holds hi' hx hpad'
  refine ⟨t, t', ht, ht', fun a ha => ?_⟩
  have hlt : a < (Config.hw.encode x).length := by rwa [length_encode]
  exact ⟨(hfrm a hlt).trans (hfrm' a hlt).symm, hfrm.filled a hlt⟩

/-! ## DECODE_FRAME and CORRECT -/

/-- Settles O18: the bytes read from `FRM` are those of `bytesAt`; the syndrome answered is the one just left. -/
theorem decodeFrameLeavesSymbolsAndSyndrome : Obligations.DecodeFrameLeavesSymbolsAndSyndrome := by
  intro s hi
  exact ⟨_, _, bytesAt_readsAs Config.hw s.fcu.frm s.draws _, execDecodeFrameIn_eq Config.hw hi,
    Memory.holds_pokeAll _ _, Memory.sameFrom_pokeAll _ _ _ (length_decodeBuffer _ _).le,
    by simp only [hi, flagByte_eq_ite], rfl, rfl, rfl, by simp⟩

/-- Settles O19: the answer and, where it is true, the corrected Symbols are those of the bytes `FRM` holds; either way
`FRAME_SIZE` bytes are written. -/
theorem correctAfterDecodeAnswersTheCode : Obligations.CorrectAfterDecodeAnswersTheCode := by
  intro f s hi hfresh hf hfrm
  have heq := execCorrectIn_fresh Config.hw hi hfresh
  rw [bytesAt_eq_of_holds_length _ _ hf hfrm] at heq
  refine ⟨_, heq, by simp only [hi, flagByte_eq_ite], fun hok => ?_, Memory.filled_pokeAll _ ?_⟩
  · rw [if_pos hok]
    exact Memory.holds_pokeAll _ _
  · split_ifs <;> simp

/-- Settles O20: whatever CORRECT answers, it writes `FRAME_SIZE` bytes. -/
theorem correctCompletesAndKeepsTheRest : Obligations.CorrectCompletesAndKeepsTheRest := by
  intro s hi
  obtain ⟨ok, w, hw, heq⟩ := execCorrectIn_spec Config.hw hi
  exact ⟨ok, _, heq, by simp only [hi, flagByte_eq_ite], Memory.filled_pokeAll _ hw,
    Memory.sameFrom_pokeAll _ _ _ hw.le, rfl, rfl, rfl, by simp⟩

/-! ## EXTRACT_PAYLOAD -/

/-- Settles O21: the bytes read from `FRM` are those of `bytesAt`. -/
theorem extractPayloadCopiesFirstBytes : Obligations.ExtractPayloadCopiesFirstBytes := by
  intro s hi
  exact ⟨_, _, bytesAt_readsAs Config.hw s.fcu.frm s.draws _, execExtractPayloadIn_eq Config.hw hi,
    Memory.holds_pokeAll _ _, Memory.sameFrom_pokeAll _ _ _ (length_bytesAt _ _ _ _ _).le,
    by simp only [hi], rfl, rfl⟩

end Sys2Proof.Machine
end

