-- ==== Sys2Proof/Proofs/Transmit.lean ====
section
/-! PROOFS. The Transmit Pipeline (42_transmit.md R161 to R167): TRANSMIT completed, hung and refused, what it hands to
the TA, and what the other station receives of it (43_receive.md R176). -/

namespace Sys2Proof.Machine

/-! ## Waiting with nothing from outside -/

/-- A step with no input to take. -/
theorem step_of_no_inputs {s : State} (h : s.inputs = []) : step s = noInput s := by
  rw [step, h]

/-- Settles O9: `noInput` asks for `PHASE` alone. -/
theorem withoutInputIdleWaitsAndBusyIsStuck : Obligations.WithoutInputIdleWaitsAndBusyIsStuck := by
  intro s hin
  rw [step_of_no_inputs hin]
  exact ⟨fun hi => if_pos hi, fun hi => if_neg hi⟩

/-- R256: a command word, legal or not, issued while `PHASE` is not `Idle` is refused. -/
theorem stepCommand_running (w : CommandWord) {s : State} (h : s.fcu.phase ≠ .idle) :
    stepCommand w s = .refused .commandWhileRunning := by
  rw [stepCommand]
  split
  · exact exec_running _ h
  · exact whenIdle_running h _

/-! ## TRANSMIT of an oversize length -/

/-- Settles O24: a refused TRANSMIT goes through `Busy` and back to `Idle`, where it was issued. -/
theorem oversizeTransmitIsRefused : Obligations.OversizeTransmitIsRefused := by
  intro len s hi hlen
  refine (execTransmitIn_oversize Config.hw hi hlen).trans ?_
  rw [List.append_assoc, ← hi]
  rfl

/-! ## TRANSMIT of a legal length -/

/-- The state in which a TRANSMIT of `len` bytes issued in `s` waits for its confirmation (R161 steps 2 to 5): the
buffers are written, the frame is handed over, `RES` and `ERR` are as they were. -/
def State.awaitingConfirmation (c : Config) (len : Nat) (s : State) : State :=
  { s with
    fcu := { s.fcu with
      pad := Memory.pokeAll s.fcu.pad 0 (paddedPayload c len s)
      frm := Memory.pokeAll s.fcu.frm 0 (c.encode (paddedPayload c len s))
      phase := .busy }
    bca := { s.bca with fresh := false }
    ta := { s.ta with pending := .unknown, confirmAnswer := .unknown }
    trace := s.trace ++ [.phase .busy, .bcaEncode (paddedPayload c len s),
      .taSend (c.encode (paddedPayload c len s)) c.frameSize, .taWaitSendComplete]
    draws := drawsAfter s.ta.confirmAnswer (s.draws + 3) }

/-- R161, R166: a TRANSMIT of a legal length waits for its confirmation, and completes where it comes. -/
theorem execTransmitIn_eq (c : Config) {len : Nat} {s : State} (hi : s.fcu.phase = .idle)
    (hlen : len ≤ c.maxPayload) :
    execTransmitIn c len s = .next
      (if transmitConfirmed c s then finish 0x00#8 .ok (s.awaitingConfirmation c len)
      else s.awaitingConfirmation c len) := by
  rw [execTransmitIn_legal c hi hlen]
  cases transmitConfirmed c s with
  | false => rfl
  | true => simp [finish_eq, State.awaitingConfirmation, ErrorCode.code]

/-- A TRANSMIT that the TA confirms completes with E_OK. -/
theorem exec_transmit_confirmed {len : Nat} {s : State} (hi : s.fcu.phase = .idle) (hlen : len ≤ Config.hw.maxPayload)
    (hconf : s.ta.confirmAnswer = .known true) :
    exec (.transmit len) s = .next (finish 0x00#8 .ok (s.awaitingConfirmation Config.hw len)) := by
  have hok : transmitConfirmed Config.hw s = true := by rw [transmitConfirmed, hconf, boolOf_known]
  exact (execTransmitIn_eq Config.hw hi hlen).trans (by rw [if_pos hok])

/-- A TRANSMIT that the TA never confirms stays waiting (R166). -/
theorem exec_transmit_unconfirmed {len : Nat} {s : State} (hi : s.fcu.phase = .idle)
    (hlen : len ≤ Config.hw.maxPayload) (hconf : s.ta.confirmAnswer = .known false) :
    exec (.transmit len) s = .next (s.awaitingConfirmation Config.hw len) := by
  have hno : ¬ transmitConfirmed Config.hw s = true := by rw [transmitConfirmed, hconf, boolOf_known]; nofun
  exact (execTransmitIn_eq Config.hw hi hlen).trans (by rw [if_neg hno])

/-- R161 steps 2 and 3: the waiting TRANSMIT has the padded payload in `PAD` and nothing else written there. -/
theorem awaitingConfirmation_pad (c : Config) {len : Nat} (s : State) (hlen : len ≤ c.maxPayload) :
    Memory.Holds (s.awaitingConfirmation c len).fcu.pad (paddedPayload c len s) ∧
      Memory.SameFrom s.fcu.pad (s.awaitingConfirmation c len).fcu.pad c.maxPayload :=
  ⟨Memory.holds_pokeAll _ _, Memory.sameFrom_pokeAll _ _ _ (length_paddedPayload c s hlen).le⟩

/-- R161 step 3: it has the encoding of that payload in `FRM` and nothing else written there. -/
theorem awaitingConfirmation_frm (c : Config) (len : Nat) (s : State) :
    Memory.Holds (s.awaitingConfirmation c len).fcu.frm (c.encode (paddedPayload c len s)) ∧
      Memory.SameFrom s.fcu.frm (s.awaitingConfirmation c len).fcu.frm c.frameSize :=
  ⟨Memory.holds_pokeAll _ _, Memory.sameFrom_pokeAll _ _ _ (length_encode _ _).le⟩

/-- Settles O22: a confirmed TRANSMIT is the waiting one, completed. -/
theorem transmitSendsTheEncodedMessage : Obligations.TransmitSendsTheEncodedMessage := by
  intro len s hi hlen hconf
  obtain ⟨hpad, hpadSame⟩ := awaitingConfirmation_pad Config.hw s hlen
  obtain ⟨hfrm, hfrmSame⟩ := awaitingConfirmation_frm Config.hw len s
  refine ⟨_, paddedPayload Config.hw len s, _, bytesAt_readsAs Config.hw s.fcu.msg s.draws len, rfl,
    exec_transmit_confirmed hi hlen hconf, hpad, hpadSame, hfrm, hfrmSame, ?_, rfl, rfl, rfl,
    List.append_assoc _ _ _⟩
  simp only [hi]
  rfl

/-- Settles O23: the waiting TRANSMIT is where the machine stays: without input it is stuck, a command is refused. -/
theorem transmitHangsWhenNeverConfirmed : Obligations.TransmitHangsWhenNeverConfirmed := by
  intro len s hi hlen hconf
  obtain ⟨hpad, hpadSame⟩ := awaitingConfirmation_pad Config.hw s hlen
  obtain ⟨hfrm, hfrmSame⟩ := awaitingConfirmation_frm Config.hw len s
  have hbusy : (s.awaitingConfirmation Config.hw len).fcu.phase ≠ .idle := nofun
  exact ⟨_, paddedPayload Config.hw len s, _, bytesAt_readsAs Config.hw s.fcu.msg s.draws len, rfl,
    exec_transmit_unconfirmed hi hlen hconf, hpad, hpadSame, hfrm, hfrmSame, rfl, rfl, rfl, rfl, rfl,
    fun hin => (withoutInputIdleWaitsAndBusyIsStuck _ hin).2 hbusy,
    fun w rest hin => (step_of_inputs hin).trans (stepCommand_running w hbusy)⟩

/-- Settles O25: the two ways out of the wait. -/
theorem transmitCompletesOrHangs : Obligations.TransmitCompletesOrHangs := by
  intro len s hi hlen
  refine ⟨_, execTransmitIn_eq Config.hw hi hlen, ?_⟩
  split_ifs
  · exact .inl ⟨rfl, rfl, rfl⟩
  · exact .inr ⟨rfl, rfl, rfl⟩

/-! ## The frame a TRANSMIT hands over -/

/-- R161: confirmed or not, a TRANSMIT of a Message the state holds hands over the encoding of the padded Message, and
leaves it in `FRM`. -/
theorem exec_transmit_hands_over {m : List Byte} {s : State} (hlen : m.length ≤ Config.hw.maxPayload)
    (hi : s.fcu.phase = .idle) (hmsg : Memory.Holds s.fcu.msg m) :
    ∃ t, exec (.transmit m.length) s = .next t ∧
      Memory.Holds t.fcu.frm
        (Config.hw.encode (m ++ List.replicate (Config.hw.maxPayload - m.length) 0x00#8)) ∧
      .taSend (Config.hw.encode (m ++ List.replicate (Config.hw.maxPayload - m.length) 0x00#8)) Config.hw.frameSize ∈
        t.trace.drop s.trace.length := by
  have hpad : paddedPayload Config.hw m.length s = m ++ List.replicate (Config.hw.maxPayload - m.length) 0x00#8 := by
    rw [paddedPayload, bytesAt_eq_of_holds _ _ hmsg]
  refine ⟨_, execTransmitIn_legal Config.hw hi hlen, ?_⟩
  rw [hpad]
  exact ⟨Memory.holds_pokeAll _ _, by simp⟩

/-- Settles O26: both states hand over the encoding of the one padded Message. -/
theorem sameMessageSendsTheSameFrame : Obligations.SameMessageSendsTheSameFrame := by
  intro m s s' hlen hi hi' hmsg hmsg'
  obtain ⟨t, ht, hfrm, hsent⟩ := exec_transmit_hands_over hlen hi hmsg
  obtain ⟨t', ht', hfrm', hsent'⟩ := exec_transmit_hands_over hlen hi' hmsg'
  exact ⟨t, t', _, ht, ht', length_encode _ _, hfrm, hfrm', hsent, hsent'⟩

/-- Settles O27: ENCODE_FRAME reads from `PAD` exactly the payload that PAD has written there. -/
theorem transmitIsPadThenEncode : Obligations.TransmitIsPadThenEncode := by
  intro len s hi hlen
  obtain ⟨t1, ht1, hi1, hpad, hfrm⟩ : ∃ t1, exec (.pad len) s = .next t1 ∧ t1.fcu.phase = .idle ∧
      t1.fcu.pad = Memory.pokeAll s.fcu.pad 0 (paddedPayload Config.hw len s) ∧ t1.fcu.frm = s.fcu.frm :=
    ⟨_, execPadIn_legal Config.hw hi hlen, rfl, rfl, rfl⟩
  have hread : bytesAt Config.hw t1.fcu.pad t1.draws 0 Config.hw.maxPayload = paddedPayload Config.hw len s := by
    rw [hpad]
    exact bytesAt_eq_of_holds_length _ _ (length_paddedPayload _ s hlen) (Memory.holds_pokeAll _ _)
  refine ⟨_, t1, _, execTransmitIn_legal Config.hw hi hlen, ht1, execEncodeFrameIn_eq Config.hw hi1, hpad.symm, ?_⟩
  simp only [hread, hfrm]

/-- Settles O51: what is sent is the frame pending at the other station; the three outcomes are those of its syndrome
and of its correction. -/
theorem sentFrameIsReceivedAsTheCodeSays : Obligations.SentFrameIsReceivedAsTheCodeSays := by
  rintro m r s s2 x f hlen rfl rfl hi hconf hmsg hi2 hp
  obtain ⟨t, ht, hdone, hsent⟩ := execTransmitIn_sends hlen hi hconf hmsg
  obtain ⟨t2, ht2, hrec⟩ := execTryReceiveIn_received Config.hw_wf (length_encode _ _) hi2 hp
  refine ⟨t, t2, ht, hdone, hsent, ht2, hrec.rssi, ?_⟩
  cases hsyn : Config.hw.syn _ with
  | false => exact .inl ⟨rfl, hrec.clean hsyn⟩
  | true =>
    cases hok : Config.hw.corOk _ with
    | true => exact .inr (.inl ⟨rfl, rfl, hrec.corrected hsyn hok⟩)
    | false => exact .inr (.inr ⟨rfl, rfl, hrec.uncorrectable hsyn hok⟩)

end Sys2Proof.Machine
end

