-- ==== Sys2Proof/Proofs/Receive.lean ====
section
/-! PROOFS. The Receive Pipeline (43_receive.md R176 to R187): TRY_RECEIVE that finds nothing, what it leaves of a frame
it finds, the way it takes through `PHASE`, and its agreement with the micro-operations (41_frame_codec.md R148). -/

namespace Sys2Proof.Machine

/-! ## One-bit results and statuses -/

theorem flagByte_eq_zero_iff {b : Bool} : flagByte b = 0x00#8 ↔ b = false := by
  cases b <;> decide

theorem flagByte_eq_one_iff {b : Bool} : flagByte b = 0x01#8 ↔ b = true := by
  cases b <;> decide

theorem flagByte_getLsbD_zero (b : Bool) : (flagByte b).getLsbD 0 = b := by
  cases b <;> decide

/-- The statuses of a receive that needed no correction. -/
theorem status_clean (m : Bool) : Status.byte ⟨true, false, false, m⟩ ∈ [0x01#8, 0x09#8] := by
  cases m <;> decide

/-- The statuses of a receive that was corrected. -/
theorem status_corrected (m : Bool) : Status.byte ⟨true, true, false, m⟩ ∈ [0x03#8, 0x0B#8] := by
  cases m <;> decide

/-- The statuses of a receive whose correction failed. -/
theorem status_uncorrectable (m : Bool) : Status.byte ⟨true, true, true, m⟩ ∈ [0x07#8, 0x0F#8] := by
  cases m <;> decide

/-! ## What a receive does from a fetched frame on -/

/-- What two changes leave, one after the other, both together leave. -/
theorem Memory.SameFrom.trans {m m' m'' : Memory} {n : Nat} (h : Memory.SameFrom m m' n)
    (h' : Memory.SameFrom m' m'' n) : Memory.SameFrom m m'' n :=
  fun i hi => (h' i hi).trans (h i hi)

/-- The block that the decode of a receive reads, where `FRM` is known to hold a frame. -/
theorem receivedBlock_of_holds {c : Config} {g : List Byte} {s : State} (hg : g.length = c.frameSize)
    (h : Memory.Holds s.fcu.frm g) : receivedBlock c s = g :=
  bytesAt_eq_of_holds_length c _ hg h

/-- R176: with a zero syndrome `FRM` ends as the decoded buffer. -/
theorem receivedFrm_clean {c : Config} {s : State} (hsyn : c.syn (receivedBlock c s) = false) :
    receivedFrm c s = Memory.pokeAll s.fcu.frm 0 (c.decodeBuffer (receivedBlock c s)) := by
  simp [receivedFrm, frmAfter, hsyn]

/-- R176: with a correction that succeeds `FRM` ends as the corrected buffer. -/
theorem receivedFrm_corrected {c : Config} {s : State} (hsyn : c.syn (receivedBlock c s) = true)
    (hok : c.corOk (c.decodeBuffer (receivedBlock c s)) = true) :
    receivedFrm c s = Memory.pokeAll (Memory.pokeAll s.fcu.frm 0 (c.decodeBuffer (receivedBlock c s))) 0
      (c.correctBuffer (c.decodeBuffer (receivedBlock c s))) := by
  simp [receivedFrm, frmAfter, receivedRepair, hsyn, hok]

/-- The decode and the correction write inside `FRM`. -/
theorem receivedFrm_sameFrom (c : Config) (s : State) :
    Memory.SameFrom s.fcu.frm (receivedFrm c s) c.frameSize := by
  have hdec := Memory.sameFrom_pokeAll s.fcu.frm _ _ (length_decodeBuffer c (receivedBlock c s)).le
  rw [receivedFrm, frmAfter]
  split_ifs
  · exact hdec.trans (Memory.sameFrom_pokeAll _ _ _ (length_receivedRepair c s).le)
  · exact hdec

/-- R183: the extraction leaves `FRM`. -/
theorem receiveFrame_frm (c : Config) (n : Byte) (s : State) :
    (receiveFrame c n s).fcu.frm = receivedFrm c s := by
  rw [receiveFrame_eq]

/-- R183: `OUT` is written from what `FRM` ends with; every byte of that is specified, so any draw reads the same. -/
theorem receiveFrame_out {c : Config} (hsize : c.maxPayload ≤ c.frameSize) (n : Byte) (s : State) (d : Nat) :
    (receiveFrame c n s).fcu.out =
      Memory.pokeAll s.fcu.out 0 (bytesAt c (receivedFrm c s) d 0 c.maxPayload) := by
  have hfilled : Memory.Filled (receivedFrm c s) c.maxPayload :=
    fun i hi => receivedFrm_filled c s i (hi.trans_le hsize)
  rw [receiveFrame_eq]
  exact congrArg (Memory.pokeAll s.fcu.out 0) (bytesAt_eq_of_filled c _ d _ hfilled)

/-- A write of what was read of specified bytes is a copy of them. -/
theorem Memory.peek_pokeAll_bytesAt {c : Config} {m : Memory} {n i : Nat} (m' : Memory) (d : Nat) (hi : i < n)
    (h : Memory.peek m i ≠ none) : Memory.peek (Memory.pokeAll m' 0 (bytesAt c m d 0 n)) i = Memory.peek m i := by
  obtain ⟨b, hb⟩ := Option.ne_none_iff_exists'.mp h
  simp [Memory.peek_pokeAll_zero, bytesAt, hi, hb]

/-- R183: `OUT` ends as the first `MAX_PAYLOAD` bytes of `FRM`, all specified. -/
theorem receiveFrame_out_eq_frm {c : Config} (hsize : c.maxPayload ≤ c.frameSize) (n : Byte) (s : State) {i : Nat}
    (hi : i < c.maxPayload) :
    Memory.peek (receiveFrame c n s).fcu.out i = Memory.peek (receiveFrame c n s).fcu.frm i ∧
      Memory.peek (receiveFrame c n s).fcu.out i ≠ none := by
  have hspec : Memory.peek (receivedFrm c s) i ≠ none := receivedFrm_filled c s i (hi.trans_le hsize)
  rw [receiveFrame_frm, receiveFrame_out hsize n s 0, Memory.peek_pokeAll_bytesAt _ _ hi hspec]
  exact ⟨rfl, hspec⟩

/-- R183: the extraction writes inside `OUT`. -/
theorem receiveFrame_out_sameFrom {c : Config} (hsize : c.maxPayload ≤ c.frameSize) (n : Byte) (s : State) :
    Memory.SameFrom s.fcu.out (receiveFrame c n s).fcu.out c.maxPayload := by
  rw [receiveFrame_out hsize n s 0]
  exact Memory.sameFrom_pokeAll _ _ _ (length_bytesAt _ _ _ _ _).le

/-- The hardware's payload is part of its frame (R10). -/
theorem hw_maxPayload_le_frameSize : Config.hw.maxPayload ≤ Config.hw.frameSize := by
  obtain ⟨-, -, hlt, -⟩ := Config.hw_wf
  exact hlt.le

/-- R184, R186: the status of a receive, each flag by its own cause. -/
theorem receiveFrame_status_bits (c : Config) (n : Byte) (s : State) :
    (receiveFrame c n s).fcu.res.toNat < 16 ∧ (receiveFrame c n s).fcu.res.getLsbD 0 = true ∧
      (receiveFrame c n s).fcu.res.getLsbD 1 = c.syn (receivedBlock c s) ∧
      (receiveFrame c n s).fcu.res.getLsbD 2 =
        (c.syn (receivedBlock c s) && !c.corOk (c.decodeBuffer (receivedBlock c s))) ∧
      (receiveFrame c n s).fcu.res.getLsbD 3 = sizeMismatch c.frameSize n := by
  rw [receiveFrame_eq]
  exact status_bits _ _ _

/-- R184: a receive of a frame sets `R`, so its status is not 0. -/
theorem receiveFrame_res_ne_zero (c : Config) (n : Byte) (s : State) : (receiveFrame c n s).fcu.res ≠ 0x00#8 := by
  obtain ⟨-, hR, -⟩ := receiveFrame_status_bits c n s
  intro h0
  simp [h0] at hR

/-- What a receive of the block `f` does at the interface once the frame is fetched, in order (R176, R187). -/
def receiveEvents (c : Config) (f : List Byte) : List Event :=
  [.taLastSignalStrength, .bcaDecode c.frameSize, .phase .decoded, .bcaSyndromeNonZero] ++
    (if c.syn f then [.phase .correcting, .bcaCorrect c.frameSize 0,
      .phase (if c.corOk (c.decodeBuffer f) then .corrected else .uncorrectable)]
    else [.phase .clean]) ++ [.phase .idle]

theorem receiveFrame_trace (c : Config) (n : Byte) (s : State) :
    (receiveFrame c n s).trace = s.trace ++ receiveEvents c (receivedBlock c s) := by
  rw [receiveFrame_eq]
  rfl

/-! ## A poll that finds nothing -/

/-- Settles O28: the poll is issued in `Idle` and ends there. -/
theorem emptyPollIsSideEffectFree : Obligations.EmptyPollIsSideEffectFree := by
  intro s hi hp
  refine (execTryReceiveIn_none Config.hw hi hp).trans ?_
  simp only [hi, List.append_assoc, List.cons_append, List.nil_append]

/-- R176, R177: TRY_RECEIVE found nothing and changed `RES` and `ERR`, or a frame was fetched, which wrote inside `FRM`
and left `OUT`, and the rest follows from there. -/
theorem exec_tryReceive_cases {s : State} (hi : s.fcu.phase = .idle) :
    (∃ ta d, exec .tryReceive s = .next
      { s with
        fcu := { s.fcu with res := 0x00#8, err := 0x00#8 }
        ta := ta
        trace := s.trace ++ [.taReceive, .phase .polled, .phase .noData, .phase .idle]
        draws := d }) ∨
    (∃ n u, exec .tryReceive s = .next (receiveFrame Config.hw n u) ∧
      u.trace = s.trace ++ [.taReceive, .phase .polled] ∧
      Memory.SameFrom s.fcu.frm u.fcu.frm Config.hw.frameSize ∧ u.fcu.out = s.fcu.out) := by
  rcases execTryReceiveIn_spec Config.hw hi with ⟨ta, d, h⟩ | ⟨n, w, ta, d, hw, h⟩
  · refine .inl ⟨ta, d, h.trans ?_⟩
    simp only [hi, List.append_assoc, List.cons_append, List.nil_append]
  · exact .inr ⟨n, _, h, List.append_assoc _ _ _, Memory.sameFrom_pokeAll _ _ _ hw.le, rfl⟩

/-- Settles O29: a frame found sets `R` and has its strength asked for, which an empty poll does not. -/
theorem receiveThatFindsNothingChangesNothing : Obligations.ReceiveThatFindsNothingChangesNothing := by
  intro s hi
  rcases exec_tryReceive_cases hi with ⟨ta, d, h⟩ | ⟨n, u, h, htrace, -⟩
  · exact ⟨_, h, iff_of_true rfl rfl, fun _ => ⟨rfl, rfl⟩⟩
  · have hres := receiveFrame_res_ne_zero Config.hw n u
    refine ⟨_, h, iff_of_false hres ?_, fun h0 => absurd h0 hres⟩
    simp [receiveFrame_trace, htrace, receiveEvents]

/-! ## Status and path -/

/-- Settles O31: a frame's status has `U` only together with `C`. -/
theorem receiveStatusIsOneOfSeven : Obligations.ReceiveStatusIsOneOfSeven := by
  intro s hi
  rcases exec_tryReceive_cases hi with ⟨ta, d, h⟩ | ⟨n, u, h, -⟩ <;> refine ⟨_, h, ?_⟩
  · exact ⟨hi, rfl, List.mem_cons_self⟩
  · rw [receiveFrame_eq]
    exact ⟨rfl, rfl, List.mem_cons_of_mem _ (status_mem_seven _ _ _ fun hu => (Bool.and_eq_true_iff.mp hu).1)⟩

/-- Settles O32: the syndrome and the correction's answer choose the path and the status. -/
theorem receivePathFollowsTheStateMachine : Obligations.ReceivePathFollowsTheStateMachine := by
  intro s hi
  rcases exec_tryReceive_cases hi with ⟨ta, d, h⟩ | ⟨n, u, h, htrace, -⟩
  · exact ⟨_, _, h, rfl, .inl ⟨rfl, rfl, rfl⟩⟩
  · refine ⟨_, [.taReceive, .phase .polled] ++ receiveEvents Config.hw (receivedBlock Config.hw u), h, ?_, .inr ?_⟩
    · rw [receiveFrame_trace, htrace, List.append_assoc]
    rw [receiveFrame_eq, receiveEvents]
    cases hsyn : Config.hw.syn (receivedBlock Config.hw u) with
    | false => exact .inl ⟨rfl, status_clean _, rfl⟩
    | true =>
      cases hok : Config.hw.corOk (Config.hw.decodeBuffer (receivedBlock Config.hw u)) with
      | true => exact .inr (.inl ⟨rfl, status_corrected _, rfl⟩)
      | false => exact .inr (.inr ⟨rfl, status_uncorrectable _, rfl⟩)

/-! ## A frame that arrives -/

/-- Settles O52: whatever frame was fetched, the decode, the correction and the extraction write within their spaces. -/
theorem anyArrivalDeliversFrmInOut : Obligations.AnyArrivalDeliversFrmInOut := by
  intro s hi
  rcases exec_tryReceive_cases hi with ⟨ta, d, h⟩ | ⟨n, u, h, -, hfrm, hout⟩ <;>
    refine ⟨_, h, fun hflag => ?_⟩
  · exact absurd hflag (show ¬(0x00#8).getLsbD 0 = true by decide)
  obtain ⟨-, -, hrssi⟩ := receiveFrame_reports Config.hw n u
  have hfresh : (receiveFrame Config.hw n u).bca.fresh = false := by rw [receiveFrame_eq]
  refine ⟨?_, fun i => receiveFrame_out_eq_frm hw_maxPayload_le_frameSize n u, ?_,
    hout ▸ receiveFrame_out_sameFrom hw_maxPayload_le_frameSize n u, hrssi, hfresh⟩
  · rw [receiveFrame_frm]
    exact receivedFrm_filled _ _
  · rw [receiveFrame_frm]
    exact hfrm.trans (receivedFrm_sameFrom _ _)

/-- R117: a fetch puts the first `min(size, FRAME_SIZE)` received bytes first. -/
theorem fetched_getElem? (c : Config) (d : Nat) {u : RxUnit} {i : Nat} {b : Byte} (hsize : i < u.size.toNat)
    (hframe : i < c.frameSize) (hb : u.bytes[i]? = some b) : (fetched c d u)[i]? = some b := by
  simp [fetched, hsize, hframe, hb]

/-- The state in which TRY_RECEIVE goes on once it has fetched the unit `u` that AIR made pending (R176 step 1). -/
def State.polled (c : Config) (u : RxUnit) (s : State) : State := (taFetch c u (s.emit .taReceive)).setPhase .polled

/-- R176 step 1: TRY_RECEIVE of a pending unit fetches it. -/
theorem exec_tryReceive_polled {u : RxUnit} {s : State} (hi : s.fcu.phase = .idle)
    (hp : s.ta.pending = .known (some u)) :
    exec .tryReceive s = .next (receiveFrame Config.hw u.size (s.polled Config.hw u)) :=
  execTryReceiveIn_some Config.hw hi hp

/-- The decode of that receive reads what was fetched. -/
theorem receivedBlock_polled (c : Config) (u : RxUnit) (s : State) :
    receivedBlock c (s.polled c u) = fetched c s.draws u :=
  receivedBlock_of_holds (length_fetched _ _ _) (Memory.holds_pokeAll _ _)

/-- Settles O30: `f` is what the fetch left in `FRM`. -/
theorem receivedFrameGivesStatusAndPayload : Obligations.ReceivedFrameGivesStatusAndPayload := by
  intro u s hi hp
  have hblock := receivedBlock_polled Config.hw u s
  have hfetch : Memory.SameFrom s.fcu.frm (s.polled Config.hw u).fcu.frm Config.hw.frameSize :=
    Memory.sameFrom_pokeAll _ _ _ (length_fetched _ _ _).le
  obtain ⟨hlow, hR, hC, hU, hM⟩ := receiveFrame_status_bits Config.hw u.size (s.polled Config.hw u)
  rw [hblock] at hC hU
  refine ⟨fetched Config.hw s.draws u, _, _, length_fetched _ _ _, fun i b => fetched_getElem? _ _, rfl,
    exec_tryReceive_polled hi hp, hlow, hR, hC, hU, hM, fun hsyn => ?_, fun hsyn hok => ?_,
    fun i => receiveFrame_out_eq_frm hw_maxPayload_le_frameSize _ _, ?_,
    receiveFrame_out_sameFrom hw_maxPayload_le_frameSize u.size (s.polled Config.hw u), ?_, ?_, ?_, ?_⟩
  · rw [receiveFrame_frm, receivedFrm_clean (by rwa [hblock]), hblock]
    exact Memory.holds_pokeAll _ _
  · rw [receiveFrame_frm, receivedFrm_corrected (by rwa [hblock]) (by rwa [hblock]), hblock]
    exact Memory.holds_pokeAll _ _
  · rw [receiveFrame_frm]
    exact hfetch.trans (receivedFrm_sameFrom _ _)
  · rw [receiveFrame_eq, ← hi]
    rfl
  · rw [receiveFrame_eq, hblock]
  · rw [receiveFrame_eq]
    rfl
  · rw [receiveFrame_eq]
    rfl

/-! ## The micro-operations in its place -/

/-- R143: DECODE_FRAME of a frame that `FRM` holds. -/
theorem execDecodeFrameIn_of_holds {c : Config} {g : List Byte} {s : State} (hi : s.fcu.phase = .idle)
    (hg : g.length = c.frameSize) (hfrm : Memory.Holds s.fcu.frm g) :
    ∃ t, execDecodeFrameIn c s = .next t ∧ t.fcu.phase = .idle ∧ t.bca.fresh = true ∧
      t.fcu.res = flagByte (c.syn g) ∧ t.fcu.frm = Memory.pokeAll s.fcu.frm 0 (c.decodeBuffer g) ∧
      t.fcu.out = s.fcu.out := by
  refine ⟨_, execDecodeFrameIn_eq c hi, ?_⟩
  rw [bytesAt_eq_of_holds_length _ _ hg hfrm]
  exact ⟨rfl, rfl, rfl, rfl, rfl⟩

/-- R144: CORRECT of Symbols that `FRM` holds, after a decode of the same content. -/
theorem execCorrectIn_of_holds {c : Config} {f : List Byte} {s : State} (hi : s.fcu.phase = .idle)
    (hfresh : s.bca.fresh = true) (hf : f.length = c.frameSize) (hfrm : Memory.Holds s.fcu.frm f) :
    ∃ t, execCorrectIn c s = .next t ∧ t.fcu.phase = .idle ∧ t.fcu.res = flagByte (c.corOk f) ∧
      (c.corOk f = true → t.fcu.frm = Memory.pokeAll s.fcu.frm 0 (c.correctBuffer f)) ∧
      t.fcu.out = s.fcu.out := by
  refine ⟨_, execCorrectIn_fresh c hi hfresh, ?_⟩
  rw [bytesAt_eq_of_holds_length _ _ hf hfrm]
  exact ⟨rfl, rfl, fun hok => by simp only [hok, if_true], rfl⟩

/-- R148, R183: EXTRACT_PAYLOAD runs, and where `FRM` stands as a receive leaves it, it ends with that receive's `FRM`
and `OUT`. -/
theorem execExtractPayloadIn_agrees {c : Config} (hsize : c.maxPayload ≤ c.frameSize) (n : Byte) (s : State)
    {t : State} (hi : t.fcu.phase = .idle) :
    ∃ v, execExtractPayloadIn c t = .next v ∧ (t.fcu.frm = receivedFrm c s → t.fcu.out = s.fcu.out →
      ∀ a, Memory.peek (receiveFrame c n s).fcu.frm a = Memory.peek v.fcu.frm a ∧
        Memory.peek (receiveFrame c n s).fcu.out a = Memory.peek v.fcu.out a) := by
  refine ⟨_, execExtractPayloadIn_eq c hi, fun hfrm hout a => ?_⟩
  rw [receiveFrame_frm, receiveFrame_out hsize n s t.draws, hfrm, hout]
  exact ⟨rfl, rfl⟩

/-- Settles O33: the receive and the micro-operations decode the same fetched frame, and `FRM` stands alike before the
extraction. -/
theorem receiveIsDecodeCorrectExtract : Obligations.ReceiveIsDecodeCorrectExtract := by
  intro u s hi hp
  have hblock := receivedBlock_polled Config.hw u s
  obtain ⟨t1, ht1, hi1, hfresh1, hres1, hfrm1, hout1⟩ :=
    execDecodeFrameIn_of_holds (s := taFetch Config.hw u s) hi (length_fetched Config.hw s.draws u)
      (Memory.holds_pokeAll _ _)
  rw [← hblock] at hres1 hfrm1
  refine ⟨_, t1, exec_tryReceive_polled hi hp, ht1, fun hclean => ?_, fun hnonzero => ?_⟩
  · have hsyn := flagByte_eq_zero_iff.mp (hres1.symm.trans hclean)
    obtain ⟨t3, ht3, hagree⟩ :=
      execExtractPayloadIn_agrees hw_maxPayload_le_frameSize u.size (s.polled Config.hw u) hi1
    exact ⟨t3, ht3, hagree (hfrm1.trans (receivedFrm_clean hsyn).symm) hout1⟩
  · have hsyn := flagByte_eq_one_iff.mp (hres1.symm.trans hnonzero)
    obtain ⟨t2, ht2, hi2, hres2, hfrm2, hout2⟩ := execCorrectIn_of_holds hi1 hfresh1
      (length_decodeBuffer _ _) (hfrm1 ▸ Memory.holds_pokeAll _ _)
    obtain ⟨t3, ht3, hagree⟩ :=
      execExtractPayloadIn_agrees hw_maxPayload_le_frameSize u.size (s.polled Config.hw u) hi2
    refine ⟨t2, t3, ht2, ht3, ?_, fun hcorrected => hagree ?_ (hout2.trans hout1)⟩
    · obtain ⟨-, -, -, hU, -⟩ := receiveFrame_status_bits Config.hw u.size (s.polled Config.hw u)
      rw [hU, hsyn, Bool.true_and, hres2, flagByte_getLsbD_zero]
    · have hok := flagByte_eq_one_iff.mp (hres2.symm.trans hcorrected)
      rw [hfrm2 hok, hfrm1, receivedFrm_corrected hsyn hok]
      rfl

end Sys2Proof.Machine
end

