-- ==== Sys2Proof/Proofs/Lifecycle.lean ====
section
/-! PROOFS. The Radio Lifecycle Controller: CONFIGURE, RADIO_ON, RADIO_OFF, GET_RSSI (44_lifecycle.md R201 to R206). -/

namespace Sys2Proof.Machine

/-! ## CONFIGURE -/

/-- R113: where the TA's answer to the probe is decided, it is the answer that CONFIGURE gets. -/
theorem probeOk_of_known (c : Config) {s : State} {b : Bool} (h : s.ta.probeAnswer = .known b) : probeOk c s = b := by
  rw [probeOk, h, boolOf_known]

/-- R114: where the TA's answer to the frequency is decided, it is the answer that CONFIGURE gets. -/
theorem freqOk_of_known (c : Config) {s : State} {b : Bool} (h : s.ta.frequencyAnswer = .known b) :
    freqOk c s = b := by
  rw [freqOk, h, boolOf_known]

/-- R31: `RES` of a CONFIGURE, the frequency's answer in bit 1 and the probe's in bit 0, as a sum. -/
theorem configByte_eq_add (p q : Bool) :
    configByte p q = (if q = true then 0x02#8 else 0x00#8) + (if p = true then 0x01#8 else 0x00#8) := by
  cases p <;> cases q <;> rfl

/-- R222: `ERR` of a CONFIGURE is the warning unless both checks passed. -/
theorem configError_code (p q : Bool) :
    (configError p q).code = if p = true ∧ q = true then 0x00#8 else 0x02#8 := by
  cases p <;> cases q <;> rfl

/-- Settles O34: the answers are those that the equation of CONFIGURE names; `PHASE` ends `Idle`, where it was. -/
theorem configureReportsBothChecks : Obligations.ConfigureReportsBothChecks := by
  intro s hi
  exact ⟨probeOk Config.hw s, freqOk Config.hw s, _, fun _ => probeOk_of_known Config.hw,
    fun _ => freqOk_of_known Config.hw, execConfigureIn_eq Config.hw hi,
    by simp only [hi, configByte_eq_add, configError_code], rfl, rfl, rfl, rfl⟩

/-! ## RADIO_ON and RADIO_OFF -/

/-- Settles O35: RADIO_ON is issued in `Idle` and ends there, with one call in between. -/
theorem radioOnRaisesThePowerRecord : Obligations.RadioOnRaisesThePowerRecord := by
  intro s hi
  exact ⟨_, execRadioOnIn_eq Config.hw hi, by simp only [hi], rfl, rfl, by simp⟩

/-- Settles O36: RADIO_OFF is issued in `Idle` and ends there, with one call in between. -/
theorem radioOffLowersThePowerRecord : Obligations.RadioOffLowersThePowerRecord := by
  intro s hi
  exact ⟨_, execRadioOffIn_eq Config.hw hi, by simp only [hi], rfl, rfl, by simp⟩

/-! ## GET_RSSI -/

/-- Settles O37: the byte answered is that of `byteOf`, the record itself where it is known. -/
theorem getRssiReturnsTheRecord : Obligations.GetRssiReturnsTheRecord := by
  intro s hi
  refine ⟨byteOf Config.hw s.fcu.rssi s.draws, _, fun b hb => ?_, execGetRssiIn_eq Config.hw hi, by simp only [hi],
    rfl, rfl, by simp⟩
  rw [hb, byteOf_known]

end Sys2Proof.Machine
end

