-- ==== Sys2Proof/Proofs/Other.lean ====
section
/-! PROOFS. The decoder and the encoder are inverse to each other (30_encoding.md R81 to R90), what a step does with
HOST's input (R80, 20_memory.md R56) and when nothing is accepted (70_reset_and_hazards.md R256, R257), the reset state
(10_state.md R37), and the calls of the simple commands (R36). -/

namespace Sys2Proof

open Laws

/-! ## The three fields make the word -/

/-- R81: a command word is its three fields. -/
theorem commandWord_ext {w v : CommandWord} (hop : opField w = opField v) (hzero : zeroField w = zeroField v)
    (hlen : (lenField w).toNat = (lenField v).toNat) : w = v := by
  have hop' := congrArg BitVec.toNat hop
  have hzero' := congrArg BitVec.toNat hzero
  rw [opField_toNat, opField_toNat] at hop'
  rw [zeroField_toNat, zeroField_toNat] at hzero'
  rw [lenField_toNat, lenField_toNat] at hlen
  exact BitVec.eq_of_toNat_eq (by omega)

/-- R81, R83: a command is well formed when the operand fits the `LEN` field. -/
theorem wellFormed_iff (i : Instr) : i.wellFormed = true ↔ operand i ≤ 255 := by
  cases i <;> simp [Instr.wellFormed, lenFits, operand]

/-- R86: the fields of the encoded word of every well-formed command. -/
theorem encode_fields (i : Instr) : EncodedFields.Statement i := by
  cases i with
  | configure => exact EncodedFields.configure
  | transmit len => exact EncodedFields.transmit len
  | tryReceive => exact EncodedFields.tryReceive
  | getRssi => exact EncodedFields.getRssi
  | radioOn => exact EncodedFields.radioOn
  | radioOff => exact EncodedFields.radioOff
  | pad len => exact EncodedFields.pad len
  | encodeFrame => exact EncodedFields.encodeFrame
  | decodeFrame => exact EncodedFields.decodeFrame
  | correct => exact EncodedFields.correct
  | extractPayload => exact EncodedFields.extractPayload

/-! ## The words the decoder accepts -/

/-- R85: the operations without a length are those of the opcode table but TRANSMIT and PAD. -/
theorem decodeOperandless_ok_iff (op : BitVec 4) (i : Instr) :
    decodeOperandless op = .ok i ↔ op = opcode i ∧ op ≠ 0x2#4 ∧ op ≠ 0x8#4 := by
  cases i with
  | transmit len | pad len => unfold decodeOperandless; split_ifs <;> simp_all [opcode]
  | _ => revert op; decide

/-- The opcode of TRANSMIT belongs to no other command (R85). -/
theorem eq_transmit_iff (i : Instr) (len : Nat) : .transmit len = i ↔ 0x2#4 = opcode i ∧ len = operand i := by
  cases i <;> simp [opcode, operand]

/-- The opcode of PAD belongs to no other command (R85). -/
theorem eq_pad_iff (i : Instr) (len : Nat) : .pad len = i ↔ 0x8#4 = opcode i ∧ len = operand i := by
  cases i <;> simp [opcode, operand]

/-- A command whose opcode is neither of the two with a length has the operand 0 (R81). -/
theorem operand_of_opcode {op : BitVec 4} {i : Instr} (htx : op ≠ 0x2#4) (hpad : op ≠ 0x8#4) (hop : op = opcode i) :
    operand i = 0 := by
  subst hop
  cases i with
  | transmit len => exact absurd rfl htx
  | pad len => exact absurd rfl hpad
  | _ => rfl

/-- R86, R90: a word decodes to a command exactly when its fields are that command's. -/
theorem decode_ok_iff (w : CommandWord) (i : Instr) :
    decode w = .ok i ↔ opField w = opcode i ∧ zeroField w = 0x0#4 ∧ (lenField w).toNat = operand i := by
  rw [decode]
  split_ifs with hzero htx hpad hlen
  · simp [hzero]
  · simp [not_not.mp hzero, htx, eq_transmit_iff]
  · simp [not_not.mp hzero, hpad, eq_pad_iff]
  · simp only [false_iff]
    rintro ⟨hop, -, hoperand⟩
    exact hlen (BitVec.eq_of_toNat_eq (hoperand.trans (operand_of_opcode htx hpad hop)))
  · rw [decodeOperandless_ok_iff, not_not.mp hlen]
    exact ⟨fun ⟨hop, _⟩ => ⟨hop, not_not.mp hzero, (operand_of_opcode htx hpad hop).symm⟩,
      fun ⟨hop, _⟩ => ⟨hop, htx, hpad⟩⟩

/-- R86: decoding an encoded command. -/
theorem decode_encode {i : Instr} (h : i.wellFormed = true) : decode (encode i) = .ok i :=
  (decode_ok_iff _ _).mpr (encode_fields i h)

/-! ## The carriers of a command word -/

/-- A word is its high byte before its low byte. -/
theorem highByte_append_lowByte (w : CommandWord) : w.extractLsb' 8 8 ++ w.extractLsb' 0 8 = w := by
  rw [BitVec.extractLsb'_append_extractLsb'_eq_extractLsb' (by rfl)]
  exact BitVec.extractLsb'_eq_self

/-- R57: the two bytes of a legal word, low byte first, decode as the word does. -/
theorem decodeBytes_of_decode {w : CommandWord} {i : Instr} (h : decode w = .ok i) (rest : List Byte) :
    decodeBytes (w.extractLsb' 0 8 :: w.extractLsb' 8 8 :: rest) = .ok (i, rest) := by
  rw [decodeBytes, highByte_append_lowByte, h]

/-- The word that stands for a word's own number. -/
theorem tableWord_toNat (w : CommandWord) : tableWord 16 w.toNat = w := by
  rw [tableWord, Nat.mod_eq_of_lt w.isLt, BitVec.ofNat_toNat, BitVec.setWidth_eq]

end Sys2Proof

namespace Sys2Proof.Machine

/-- Settles O3: the encoded word has the command's fields, and the decoder reads them back. -/
theorem decodeOfEncodeIsTheCommand : Obligations.DecodeOfEncodeIsTheCommand := by
  intro i hwf
  exact ⟨decode_encode hwf, decodeBytes_of_decode (decode_encode hwf)⟩

/-- Settles O4: `LEN` holds the operand, so it fits; then the word and the encoding have the same three fields. -/
theorem encodeOfDecodeIsTheWord : Obligations.EncodeOfDecodeIsTheWord := by
  intro w i hw
  obtain ⟨hop, hzero, hlen⟩ := (decode_ok_iff w i).mp hw
  have hwf : i.wellFormed = true := by
    rw [wellFormed_iff, ← hlen]
    exact Nat.le_of_lt_succ (lenField w).isLt
  obtain ⟨hop', hzero', hlen'⟩ := encode_fields i hwf
  exact ⟨hwf, commandWord_ext (hop'.trans hop.symm) (hzero'.trans hzero.symm) (hlen'.trans hlen.symm)⟩

/-- Settles O1: fixed words, run through the decoder. -/
theorem decoderReadsSpecWords : Obligations.DecoderReadsSpecWords := by
  unfold Obligations.DecoderReadsSpecWords
  decide

/-! ## A command word as the next input -/

/-- R80: a legal command word is run. -/
theorem stepCommand_legal {w : CommandWord} {i : Instr} (s : State) (hw : decode w = .ok i) :
    stepCommand w s = exec i s := by
  rw [stepCommand, hw]

/-- Settles O5: the word that `withFetchWord` puts first is the encoding itself. -/
theorem stepRunsTheIssuedCommand : Obligations.StepRunsTheIssuedCommand := by
  have hissue : ∀ (s : State) (w : CommandWord) (rest : List Input) (i : Instr),
      s.inputs = .command w :: rest → decode w = .ok i → step s = exec i { s with inputs := rest } :=
    fun s w rest i hin hw => (step_of_inputs hin).trans (stepCommand_legal _ hw)
  refine ⟨hissue, fun s i hwf => hissue _ (encode i) s.inputs i ?_ (decode_encode hwf)⟩
  rw [State.withFetchWord, tableWord_toNat]

/-- Settles O40: every command is `whenIdle` of one effect. -/
theorem commandsNeverStopTheMachine : Obligations.CommandsNeverStopTheMachine := by
  intro i s
  obtain ⟨k, hk⟩ := exec_eq_whenIdle i
  rw [hk]
  exact ⟨whenIdle_fault s k, fun hi => ⟨k s, whenIdle_idle hi k⟩⟩

/-! ## A HOST write as the next input -/

/-- R56: a HOST write inside its space, while idle, is one `Memory.poke`. -/
theorem hostWriteIn_inside {c : Config} {sp : Space} {i : Nat} (b : Byte) {s : State} (hi : s.fcu.phase = .idle)
    (h : i < sp.size c) :
    hostWriteIn c sp i b s = .next (s.setSpace sp (Memory.poke (s.fcu.space sp) i b)) := by
  rw [hostWriteIn, if_pos hi, if_pos h]
  rfl

/-- R51, R53, R54: a HOST write outside its space, while idle, faults. -/
theorem hostWriteIn_outside {c : Config} {sp : Space} {i : Nat} (b : Byte) {s : State} (hi : s.fcu.phase = .idle)
    (h : sp.size c ≤ i) : hostWriteIn c sp i b s = .fault .indexOutsideWindow := by
  rw [hostWriteIn, if_pos hi, if_neg h.not_gt]

/-- R257: a HOST write of any space while `PHASE` is not `Idle` is refused. -/
theorem hostWriteIn_running (c : Config) (sp : Space) (i : Nat) (b : Byte) {s : State} (h : s.fcu.phase ≠ .idle) :
    hostWriteIn c sp i b s = .refused .windowWhileRunning := by
  rw [hostWriteIn, if_neg h]

/-- Settles O8: a write inside is one `Memory.poke`, and only that of `FRM` touches the BCA's freshness. -/
theorem hostWritesOneWindowByte : Obligations.HostWritesOneWindowByte := by
  intro s i b rest hi
  refine ⟨fun hin hlt => ⟨_, (step_of_inputs hin).trans (hostWriteIn_inside b hi hlt), Memory.peek_poke _ i b⟩,
    fun hin hlt => ⟨_, (step_of_inputs hin).trans (hostWriteIn_inside b hi hlt), Memory.peek_poke _ i b⟩,
    fun hin hlt => ⟨_, (step_of_inputs hin).trans (hostWriteIn_inside b hi hlt), Memory.peek_poke _ i b⟩, ?_,
    fun hin hge => (step_of_inputs hin).trans (hostWriteIn_outside b hi hge)⟩
  rintro (hin | hin) hge
  · exact (step_of_inputs hin).trans (hostWriteIn_outside b hi hge)
  · exact (step_of_inputs hin).trans (hostWriteIn_outside b hi hge)

/-- Settles O7: commands and windows each have one place that looks at `PHASE`. -/
theorem nothingIsAcceptedWhileRunning : Obligations.NothingIsAcceptedWhileRunning := by
  intro s h
  exact ⟨fun i => exec_running i h, fun w _ hin => (step_of_inputs hin).trans (stepCommand_running w h),
    fun i b _ hin => (step_of_inputs hin).trans (hostWriteIn_running _ .msg i b h),
    fun i b _ hin => (step_of_inputs hin).trans (hostWriteIn_running _ .out i b h),
    fun i b _ hin => (step_of_inputs hin).trans (hostWriteIn_running _ .frm i b h)⟩

/-! ## Reset -/

/-- R37: after reset no byte of any space is specified. -/
theorem reset_space_peek (sp : Space) (i : Nat) : Memory.peek (State.reset.fcu.space sp) i = none := by
  cases sp <;> rfl

/-- Settles O10: the table is that of `Fcu.reset`, `Bca.reset` and `Ta.reset`, which the reset step installs. -/
theorem resetEstablishesTheResetState : Obligations.ResetEstablishesTheResetState := by
  refine ⟨⟨rfl, rfl, rfl, rfl, rfl, rfl, rfl, reset_space_peek⟩, fun s rest hin => ?_⟩
  exact ⟨_, step_of_inputs hin, rfl, rfl, rfl, rfl⟩

/-- Settles O11: resetting the reset state changes nothing, and a reset establishes the invariant. -/
theorem resetMeetsInvariant : Obligations.ResetMeetsInvariant :=
  resetMachine_inv Config.hw State.reset

/-! ## The calls of the simple commands -/

/-- PAD calls nothing, whether it takes the length or refuses it (R141). -/
theorem exec_pad_trace (len : Nat) {s : State} (hi : s.fcu.phase = .idle) :
    ∃ t, exec (.pad len) s = .next t ∧ t.trace = s.trace ++ [.phase .busy, .phase .idle] ∧
      t.inputs = s.inputs := by
  rcases Nat.lt_or_ge Config.hw.maxPayload len with h | h
  · exact ⟨_, execPadIn_oversize _ hi h, List.append_assoc _ _ _, rfl⟩
  · exact ⟨_, execPadIn_legal _ hi h, List.append_assoc _ _ _, rfl⟩

/-- Settles O39: each command's own equation lists its calls. -/
theorem simpleCommandsMakeExactlyTheirCalls : Obligations.SimpleCommandsMakeExactlyTheirCalls := by
  intro s hi
  refine ⟨?_,
    ⟨_, _, bytesAt_readsAs Config.hw s.fcu.pad s.draws _, execEncodeFrameIn_eq Config.hw hi, by simp, rfl, rfl⟩,
    ⟨_, execRadioOnIn_eq Config.hw hi, by simp, rfl⟩, ⟨_, execRadioOffIn_eq Config.hw hi, by simp, rfl⟩⟩
  rintro i (⟨len, rfl⟩ | rfl | rfl)
  · exact exec_pad_trace len hi
  · exact ⟨_, execExtractPayloadIn_eq Config.hw hi, List.append_assoc _ _ _, rfl⟩
  · exact ⟨_, execGetRssiIn_eq Config.hw hi, List.append_assoc _ _ _, rfl⟩

end Sys2Proof.Machine
end
